-- ==== Sys2Proof/Word.lean ====
section
/-! DEFINITION. The bit widths of the machine (rule R5) and the register number. Everything that a test could show wrong
(field extraction, flags, byte order) stands in Decode.lean and under Machine/. -/

namespace Sys2Proof

/-- REG_W and TIMER_W of rule R5: one byte of memory, a general register, a timer. -/
abbrev Byte := BitVec 8

/-- PC_W, I_W and STACK_W of rule R5, and the instruction word `op` of rule R90. -/
abbrev Word := BitVec 16

/-- One nibble of an instruction word (rule R91). -/
abbrev Nibble := BitVec 4

/-- The field `nnn`, a 12-bit address (rule R92). -/
abbrev Addr12 := BitVec 12

/-- The number of a general register, V0 to VF (rule R21): 16 names, none of them illegal (rule R93). -/
abbrev RegNum := Fin 16

/-- The number of a key, 0x0 to 0xF (rule R35, and `k` of rule R8). -/
abbrev KeyNum := Fin 16

end Sys2Proof
end

