-- ==== Sys2Proof/Config.lean ====
section
/-! DEFINITION. The fixed parameters of rule R5, the type of the host's input events (rule R8), and the two free values: the
inputs the host supplies when the machine's input queues hold nothing (rules R6 and R8). -/

namespace Sys2Proof

/-- One input event of a frame (rule R8). The key number is 0 to 15 by its type, as rule R252 says it always is. -/
inductive HostEvent where
  | keyDown (k : KeyNum)
  | keyUp (k : KeyNum)
  | quit
  deriving DecidableEq, Repr

namespace Config

/-- MEM_SIZE: valid addresses are 0 to `memSize - 1` (rules R5 and R60). -/
def memSize : Nat := 4096

/-- The last valid address, 0xFFF (rule R60). -/
def lastAddr : Nat := 0xFFF

/-- The first address above the font region 0x000 to 0x04F (rule R61). -/
def fontEnd : Nat := 0x050

/-- STACK_DEPTH (rule R5). -/
def stackDepth : Nat := 16

/-- PROG_BASE, where the program image is loaded and where PC starts (rule R5). -/
def progBase : Nat := 0x200

/-- ROM_MAX, the largest program image (rules R5 and R74). -/
def romMax : Nat := 3584

/-- The least value of the open parameter CYCLES_PER_FRAME (rule R6). -/
def minSlots : Nat := 8

/-- The greatest value of the open parameter CYCLES_PER_FRAME (rule R6). -/
def maxSlots : Nat := 16

/-- FREE VALUE (log entry 7): the byte the `rnd` input of rule R8 supplies for the draw of that number when no byte waits in
`State.rnd`. It has no body: no proof can know it, so a claim holds for every sequence of draws, as rule R194 asks. -/
opaque freeRnd : Nat → Byte

/-- FREE VALUE (log entry 6): the `events` list of rule R8 for the frame of that number when no list waits in
`State.events`. It has no body: any finite list of events, under no law (rule R262). -/
opaque freeEvents : Nat → List HostEvent

end Config

end Sys2Proof
end

