-- ==== Sys2Proof/Syntax.lean ====
section
/-! DEFINITION. The 34 instruction forms of rule R96, one constructor for each row of spec/opcode_table.json, in the table's
order. The operands are the fields of rule R92 at exactly the widths the encoding gives them. -/

namespace Sys2Proof

/-- An instruction of the machine (rule R96). The shifts keep their `y` field although rule R98 says it selects nothing, so
that an instruction holds every bit of its word. -/
inductive Instr where
  /-- `00E0` -/
  | cls
  /-- `00EE` -/
  | ret
  /-- `1nnn` -/
  | jp (nnn : Addr12)
  /-- `2nnn` -/
  | call (nnn : Addr12)
  /-- `3xkk` -/
  | seImm (x : RegNum) (kk : Byte)
  /-- `4xkk` -/
  | sneImm (x : RegNum) (kk : Byte)
  /-- `5xy0` -/
  | seReg (x y : RegNum)
  /-- `6xkk` -/
  | ldImm (x : RegNum) (kk : Byte)
  /-- `7xkk` -/
  | addImm (x : RegNum) (kk : Byte)
  /-- `8xy0` -/
  | ldReg (x y : RegNum)
  /-- `8xy1` -/
  | orReg (x y : RegNum)
  /-- `8xy2` -/
  | andReg (x y : RegNum)
  /-- `8xy3` -/
  | xorReg (x y : RegNum)
  /-- `8xy4` -/
  | addReg (x y : RegNum)
  /-- `8xy5` -/
  | subReg (x y : RegNum)
  /-- `8xy6` -/
  | shr (x y : RegNum)
  /-- `8xy7` -/
  | subnReg (x y : RegNum)
  /-- `8xyE` -/
  | shl (x y : RegNum)
  /-- `9xy0` -/
  | sneReg (x y : RegNum)
  /-- `Annn` -/
  | ldI (nnn : Addr12)
  /-- `Bnnn` -/
  | jpV0 (nnn : Addr12)
  /-- `Cxkk` -/
  | rnd (x : RegNum) (kk : Byte)
  /-- `Dxyn` -/
  | drw (x y : RegNum) (n : Nibble)
  /-- `Ex9E` -/
  | skp (x : RegNum)
  /-- `ExA1` -/
  | sknp (x : RegNum)
  /-- `Fx07` -/
  | ldVxDt (x : RegNum)
  /-- `Fx0A` -/
  | ldVxK (x : RegNum)
  /-- `Fx15` -/
  | ldDtVx (x : RegNum)
  /-- `Fx18` -/
  | ldStVx (x : RegNum)
  /-- `Fx1E` -/
  | addI (x : RegNum)
  /-- `Fx29` -/
  | ldF (x : RegNum)
  /-- `Fx33` -/
  | ldB (x : RegNum)
  /-- `Fx55` -/
  | storeRegs (x : RegNum)
  /-- `Fx65` -/
  | loadRegs (x : RegNum)
  deriving DecidableEq, Repr

end Sys2Proof
end

