-- ==== Sys2Proof/Decode.lean ====
section
/-! DEFINITION. The fields of an instruction word (rules R15 and R92), the decoder (rules R94 and R95), total on any bytes and
rejecting each undefined family of rule R100 by name, and after it the encoder, written from the formats of rule R91. -/

namespace Sys2Proof

/-- `op[15:12]` (rule R92). -/
def fieldFamily (op : Word) : Nibble := op.extractLsb' 12 4

/-- `x = op[11:8]` (rule R15), as bits. -/
def fieldX (op : Word) : Nibble := op.extractLsb' 8 4

/-- `y = op[7:4]` (rule R15), as bits. -/
def fieldY (op : Word) : Nibble := op.extractLsb' 4 4

/-- `n = op[3:0]` (rule R15), an unsigned count or a selector. -/
def fieldN (op : Word) : Nibble := op.extractLsb' 0 4

/-- `kk = op[7:0]` (rule R15), taken as it stands (rule R93). -/
def fieldKK (op : Word) : Byte := op.extractLsb' 0 8

/-- `nnn = op[11:0]` (rule R15), taken as it stands (rule R93). -/
def fieldNNN (op : Word) : Addr12 := op.extractLsb' 0 12

/-- The register a 4-bit field names: all 16 values are legal, 15 being VF (rule R93). -/
def regOf (b : Nibble) : RegNum := b.toFin

/-- The 4-bit field that names a register (rule R93). -/
def regBits (r : RegNum) : Nibble := BitVec.ofFin r

/-- Why a decoder reads no instruction: the row of rule R100 the word falls under, or too few bytes. -/
inductive Reject where
  /-- Family 0 and neither 0x00E0 nor 0x00EE. -/
  | family0
  /-- Family 5 with `op[3:0]` not 0. -/
  | family5
  /-- Family 8 with `op[3:0]` one of 8 to 0xD or 0xF. -/
  | family8
  /-- Family 9 with `op[3:0]` not 0. -/
  | family9
  /-- Family E with `op[7:0]` neither 0x9E nor 0xA1. -/
  | familyE
  /-- Family F with `op[7:0]` none of the nine of rule R95. -/
  | familyF
  /-- Fewer than two bytes: there is no instruction word (rule R90). -/
  | truncated
  deriving DecidableEq, Repr

/-- What a decoder answers. -/
inductive Decoded where
  | instr (i : Instr)
  | undefined (r : Reject)
  deriving DecidableEq, Repr

/-- Family 8: the operation is selected by `op[3:0]` (rules R95 and R170). -/
def decodeFamily8 (x y : RegNum) (n : Nibble) : Decoded :=
  match n.toNat with
  | 0x0 => .instr (.ldReg x y)
  | 0x1 => .instr (.orReg x y)
  | 0x2 => .instr (.andReg x y)
  | 0x3 => .instr (.xorReg x y)
  | 0x4 => .instr (.addReg x y)
  | 0x5 => .instr (.subReg x y)
  | 0x6 => .instr (.shr x y)
  | 0x7 => .instr (.subnReg x y)
  | 0xE => .instr (.shl x y)
  | _ => .undefined .family8

/-- Family F: the operation is selected by `op[7:0]` (rules R95 and R220). -/
def decodeFamilyF (x : RegNum) (kk : Byte) : Decoded :=
  match kk.toNat with
  | 0x07 => .instr (.ldVxDt x)
  | 0x0A => .instr (.ldVxK x)
  | 0x15 => .instr (.ldDtVx x)
  | 0x18 => .instr (.ldStVx x)
  | 0x1E => .instr (.addI x)
  | 0x29 => .instr (.ldF x)
  | 0x33 => .instr (.ldB x)
  | 0x55 => .instr (.storeRegs x)
  | 0x65 => .instr (.loadRegs x)
  | _ => .undefined .familyF

/-- The decoder (rules R94 and R95): by family, then by the family's selector. It depends on the word only. -/
def decodeWord (op : Word) : Decoded :=
  let x := regOf (fieldX op)
  let y := regOf (fieldY op)
  match (fieldFamily op).toNat with
  | 0x0 => if op = 0x00E0 then .instr .cls else if op = 0x00EE then .instr .ret else .undefined .family0
  | 0x1 => .instr (.jp (fieldNNN op))
  | 0x2 => .instr (.call (fieldNNN op))
  | 0x3 => .instr (.seImm x (fieldKK op))
  | 0x4 => .instr (.sneImm x (fieldKK op))
  | 0x5 => if fieldN op = 0 then .instr (.seReg x y) else .undefined .family5
  | 0x6 => .instr (.ldImm x (fieldKK op))
  | 0x7 => .instr (.addImm x (fieldKK op))
  | 0x8 => decodeFamily8 x y (fieldN op)
  | 0x9 => if fieldN op = 0 then .instr (.sneReg x y) else .undefined .family9
  | 0xA => .instr (.ldI (fieldNNN op))
  | 0xB => .instr (.jpV0 (fieldNNN op))
  | 0xC => .instr (.rnd x (fieldKK op))
  | 0xD => .instr (.drw x y (fieldN op))
  | 0xE =>
    if fieldKK op = 0x9E then .instr (.skp x) else if fieldKK op = 0xA1 then .instr (.sknp x)
    else .undefined .familyE
  | _ => decodeFamilyF x (fieldKK op)

/-- Two bytes as the instruction word they hold, the first in the high bits (rule R62). -/
def wordOfBytes (b0 b1 : Byte) : Word := b0 ++ b1

/-- The two bytes of an instruction word in the order they lie in memory, high byte first (rule R62). -/
def bytesOfWord (op : Word) : List Byte := [op.extractLsb' 8 8, op.extractLsb' 0 8]

/-- The decoder on bytes: the first two are the instruction word, big-endian, and every instruction is two bytes long
whatever its bits (rules R62 and R90); the rest follows it. -/
def decodeBytes : List Byte → Decoded × List Byte
  | b0 :: b1 :: rest => (decodeWord (wordOfBytes b0 b1), rest)
  | short => (.undefined .truncated, short)

/-- Format NNN of rule R91. -/
def formatNNN (family : Nibble) (nnn : Addr12) : Word := family ++ nnn

/-- Format XKK of rule R91. -/
def formatXKK (family : Nibble) (x : RegNum) (kk : Byte) : Word := family ++ (regBits x ++ kk)

/-- Formats XYS and XYN of rule R91. -/
def formatXYN (family : Nibble) (x y : RegNum) (n : Nibble) : Word := family ++ (regBits x ++ (regBits y ++ n))

/-- The encoder: the word of an instruction, from the patterns of rule R96 and the formats of rule R91. Format XSS is format
XKK with a fixed low byte. -/
def encode : Instr → Word
  | .cls => 0x00E0
  | .ret => 0x00EE
  | .jp nnn => formatNNN 0x1 nnn
  | .call nnn => formatNNN 0x2 nnn
  | .seImm x kk => formatXKK 0x3 x kk
  | .sneImm x kk => formatXKK 0x4 x kk
  | .seReg x y => formatXYN 0x5 x y 0x0
  | .ldImm x kk => formatXKK 0x6 x kk
  | .addImm x kk => formatXKK 0x7 x kk
  | .ldReg x y => formatXYN 0x8 x y 0x0
  | .orReg x y => formatXYN 0x8 x y 0x1
  | .andReg x y => formatXYN 0x8 x y 0x2
  | .xorReg x y => formatXYN 0x8 x y 0x3
  | .addReg x y => formatXYN 0x8 x y 0x4
  | .subReg x y => formatXYN 0x8 x y 0x5
  | .shr x y => formatXYN 0x8 x y 0x6
  | .subnReg x y => formatXYN 0x8 x y 0x7
  | .shl x y => formatXYN 0x8 x y 0xE
  | .sneReg x y => formatXYN 0x9 x y 0x0
  | .ldI nnn => formatNNN 0xA nnn
  | .jpV0 nnn => formatNNN 0xB nnn
  | .rnd x kk => formatXKK 0xC x kk
  | .drw x y n => formatXYN 0xD x y n
  | .skp x => formatXKK 0xE x 0x9E
  | .sknp x => formatXKK 0xE x 0xA1
  | .ldVxDt x => formatXKK 0xF x 0x07
  | .ldVxK x => formatXKK 0xF x 0x0A
  | .ldDtVx x => formatXKK 0xF x 0x15
  | .ldStVx x => formatXKK 0xF x 0x18
  | .addI x => formatXKK 0xF x 0x1E
  | .ldF x => formatXKK 0xF x 0x29
  | .ldB x => formatXKK 0xF x 0x33
  | .storeRegs x => formatXKK 0xF x 0x55
  | .loadRegs x => formatXKK 0xF x 0x65

/-- The bytes of an instruction as memory holds them (rules R62 and R90). -/
def encodeBytes (i : Instr) : List Byte := bytesOfWord (encode i)

/-- The word that spec/opcode_table.json numbers `w`, of `nbits` bits: an instruction is one 16-bit word, so the table's
numbering is the word's own, and bits above `nbits` are 0. -/
def tableWord (nbits w : Nat) : Word := BitVec.ofNat 16 (w % 2 ^ nbits)

/-- What the decoder reads from the bytes of the table's word, laid out as memory holds them. -/
def decodeTableWord (nbits w : Nat) : Option Instr :=
  match decodeBytes (bytesOfWord (tableWord nbits w)) with
  | (.instr i, _) => some i
  | (.undefined _, _) => none

end Sys2Proof
end

