-- ==== Sys2Proof/Machine/State.lean ====
section
/-! DEFINITION. The state of the machine as plain data (rule R20), its errors (rule R281), its outputs (rule R9), the reasons a
step stops, and the state after reset (rule R43). -/

namespace Sys2Proof.Machine

/-- The complete list of errors (rule R281). -/
inductive ErrorKind where
  | loadError
  | decodeError
  | stackUnderflow
  | stackOverflow
  | memReadOutOfBounds
  | memWriteOutOfBounds
  | fetchOutOfBounds
  | misalignedTarget
  | fontWriteViolation
  | keyIndexRange
  | indexRange
  deriving DecidableEq, Repr

/-- The record `(code, pc, info)` of a `Diag` event (rule R12) and of FAULT (rule R40). The code is kept as the error it
names; `ErrorKind.code` (Ops.lean) is its number. -/
structure Diagnostic where
  error : ErrorKind
  pc : Word
  info : Nat
  deriving DecidableEq, Repr

/-- The run states of rule R39. -/
inductive RunMode where
  | running
  | waitingForKey (t : RegNum)
  | halted
  | stopped
  | loadFailed
  deriving DecidableEq, Repr

/-- The output events of rule R9. `displayDraw` records the bit the display returned. -/
inductive Output where
  | displayClear
  | displayDraw (px : Fin 64) (py : Fin 32) (wasOn : Bool)
  | present
  | audioResume
  | audioPause
  | diag (d : Diagnostic)
  deriving DecidableEq, Repr

/-- The phase of the frame the next step performs (rule R250). BATCH carries the number of its next slot (rule R253). -/
inductive Phase where
  | poll
  | batch (slot : Nat)
  | audio
  | tick
  | present
  | sleep
  | endFrame
  deriving DecidableEq, Repr

/-- The 4096 bytes of memory (rule R33), as the cells that differ from what an unlisted address reads as. The form and the
operations are in Ops.lean. -/
abbrev Memory := List Host.Cell

/-- The framebuffer `FB[r][c]`: 32 rows of 64 cells, `true` for on (rule R34). -/
abbrev Framebuffer := Vector (Vector Bool 64) 32

/-- The state. The fields down to `audioOn` are the table of rule R20, in its order and all of it; the rest are the model's
own, with the log entry that declares each. -/
structure State where
  /-- V0 to VF (rule R21); VF is the flag (rule R22) -/
  v : Vector Byte 16
  /-- PC (rule R24) -/
  pc : Word
  /-- I (rule R27) -/
  i : Word
  /-- SP, the number of valid stack entries, 0 to 16 (rule R28) -/
  sp : Fin 17
  /-- STACK[0..15] (rule R28) -/
  stack : Vector Word 16
  /-- DT (rule R31) -/
  dt : Byte
  /-- ST (rule R32) -/
  st : Byte
  /-- M[0x000..0xFFF] (rule R33) -/
  mem : Memory
  /-- FB (rule R34) -/
  fb : Framebuffer
  /-- KEY[0..15] (rule R35) -/
  key : Vector Bool 16
  /-- LAST_KEY, 4 bits (rule R36) -/
  lastKey : KeyNum
  /-- NEW_PRESS (rule R37) -/
  newPress : Bool
  /-- QUIT_PENDING (rule R38) -/
  quitPending : Bool
  /-- RUN (rule R39) -/
  run : RunMode
  /-- FAULT (rule R40) -/
  fault : Option Diagnostic
  /-- AUDIO_ON (rule R41) -/
  audioOn : Bool
  /-- the model's own: where in the frame the next step is (log entry 1) -/
  phase : Phase
  /-- the model's own: the open parameter CYCLES_PER_FRAME of rule R6; no step writes it (log entry 2) -/
  slotsPerFrame : Nat
  /-- the model's own: the `events` lists of rule R8 that wait, the next frame's first (log entry 6) -/
  events : List (List HostEvent)
  /-- the model's own: how many POLL phases there were, the argument of `Config.freeEvents` (log entry 6) -/
  polls : Nat
  /-- the model's own: the `rnd` bytes of rule R8 that wait, the next draw's first (log entry 7) -/
  rnd : List Byte
  /-- the model's own: how many draws there were, the argument of `Config.freeRnd` (log entry 7) -/
  draws : Nat
  /-- the model's own: the trace of output events of rule R9, oldest first (log entry 8) -/
  out : List Output
  deriving DecidableEq, Repr

/-- Why a step stops. No instruction ends in one: each is raised by `step` alone, in a run state in which rule R125 says no
cycle is ever performed. All three are safe: nothing happens where the machine does nothing. -/
inductive Fault where
  /-- Raised by `step` when RUN is Halted: a fatal error occurred; only reset leaves it (rules R39, R283). Safe. -/
  | halted
  /-- Raised by `step` when RUN is Stopped: the host asked to quit; only reset leaves it (rules R39, R259). Safe. -/
  | stopped
  /-- Raised by `step` when RUN is LoadFailed: the image did not fit; no cycle ever runs (rules R39, R322). Safe. -/
  | loadFailed
  deriving DecidableEq, Repr

/-- Why an instruction has no meaning. No arm of `exec` answers with it: every instruction is modelled. -/
inductive Refusal where
  /-- Raised by an arm of `exec` whose instruction is not modelled yet; safe. None is left. -/
  | notModelled (mnemonic : String)
  deriving DecidableEq, Repr

/-- The state after a reset with an empty image and the default parameters (rules R43 and R320): PC at 0x200, no memory cell
that differs from its reset content, RUN Running, every other element zero. CYCLES_PER_FRAME is 8 here (log entry 2), FB_RESET
all off (log entry 4), and the first step is the POLL of the first frame (log entry 1). Reset with an image and other
parameters is `resetWith` (Reset.lean). -/
def State.reset : State where
  v := Vector.replicate 16 0
  pc := 0x200
  i := 0
  sp := 0
  stack := Vector.replicate 16 0
  dt := 0
  st := 0
  mem := []
  fb := Vector.replicate 32 (Vector.replicate 64 false)
  key := Vector.replicate 16 false
  lastKey := 0
  newPress := false
  quitPending := false
  run := .running
  fault := none
  audioOn := false
  phase := .poll
  slotsPerFrame := 8
  events := []
  polls := 0
  rnd := []
  draws := 0
  out := []

end Sys2Proof.Machine
end

