-- ==== Sys2Proof/Machine/Ops.lean ====
section
/-! DEFINITION. The named operations over memory, program counter, stack, framebuffer and inputs, and the two error outcomes
(rules R283 and R284), each as one shared operation. -/

namespace Sys2Proof.Machine

/-- What one instruction or phase answers. -/
abbrev Result := Host.Outcome State Fault Refusal

/-- Go on with the next state where there is one. -/
def andThen (r : Result) (f : State → Result) : Result :=
  match r with
  | .next s => f s
  | .fault e => .fault e
  | .refused e => .refused e

/-! ### Memory -/

/-- The font table of rule R66, glyph after glyph, top row first: the default of the open parameter FONT (log entry 3). -/
def fontDefault : List Byte :=
  [0xF0, 0x90, 0x90, 0x90, 0xF0] ++ [0x20, 0x60, 0x20, 0x20, 0x70] ++
  [0xF0, 0x10, 0xF0, 0x80, 0xF0] ++ [0xF0, 0x10, 0xF0, 0x10, 0xF0] ++
  [0x90, 0x90, 0xF0, 0x10, 0x10] ++ [0xF0, 0x80, 0xF0, 0x10, 0xF0] ++
  [0xF0, 0x80, 0xF0, 0x90, 0xF0] ++ [0xF0, 0x10, 0x20, 0x40, 0x40] ++
  [0xF0, 0x90, 0xF0, 0x90, 0xF0] ++ [0xF0, 0x90, 0xF0, 0x10, 0xF0] ++
  [0xF0, 0x90, 0xF0, 0x90, 0x90] ++ [0xE0, 0x90, 0xE0, 0x90, 0xE0] ++
  [0xF0, 0x80, 0x80, 0x80, 0xF0] ++ [0xE0, 0x90, 0x90, 0x90, 0xE0] ++
  [0xF0, 0x80, 0xF0, 0x80, 0xF0] ++ [0xF0, 0x80, 0xF0, 0x80, 0x80]

/-- What an unlisted address reads as: the reset content of rule R43, the default font below 0x050 and 0x00 from there. -/
def unlisted (a : Nat) : Byte := fontDefault.getD a 0

/-- The canonical form: addresses strictly rising, and no cell equal to what its address would read as unlisted. -/
abbrev Memory.wf (m : Memory) : Prop :=
  m.Pairwise (fun c d => c.1 < d.1) ∧ ∀ c ∈ m, c.2 ≠ unlisted c.1

/-- Every listed address exists (rule R60). -/
abbrev Memory.InSpace (m : Memory) : Prop := ∀ c ∈ m, c.1 < Config.memSize

/-- `MemRead(a, 1)` of rule R68. It changes no state; the caller has checked that `a` is at most 0xFFF (rule R70). -/
def Memory.read (m : Memory) (a : Nat) : Byte :=
  match m with
  | [] => unlisted a
  | c :: rest => if a = c.1 then c.2 else Memory.read rest a

/-- The memory without its cell for `a`. -/
def Memory.erase (m : Memory) (a : Nat) : Memory := m.filter (fun c => c.1 ≠ a)

/-- The memory with a cell put where its address belongs, before the first greater one. -/
def Memory.insertCell (m : Memory) (a : Nat) (b : Byte) : Memory :=
  match m with
  | [] => [(a, b)]
  | c :: rest => if a < c.1 then (a, b) :: c :: rest else c :: Memory.insertCell rest a b

/-- `MemWrite(a, 1, b)` of rule R69: `M[a] <- b` and nothing else, in canonical form. The caller has checked the address
(rules R70 and R71). -/
def Memory.write (m : Memory) (a : Nat) (b : Byte) : Memory :=
  if b = unlisted a then m.erase a else (m.erase a).insertCell a b

/-- Bytes written one after another at ascending addresses (rule R73). -/
def Memory.writeBytes (m : Memory) (a : Nat) (bs : List Byte) : Memory :=
  match bs with
  | [] => m
  | b :: rest => Memory.writeBytes (m.write a b) (a + 1) rest

/-- `MemRead(a, 2)` of rule R68: the big-endian word at `a`, used by fetch only. -/
def Memory.readWord (m : Memory) (a : Nat) : Word := wordOfBytes (m.read a) (m.read (a + 1))

/-- The bounds check of rule R70 on unbounded integers: the last address of the range does not exist. -/
def outOfBounds (hi : Nat) : Bool := Config.lastAddr < hi

/-- The font write protection of rule R71: a range that begins at `lo` contains a font address. -/
def inFont (lo : Nat) : Bool := lo < Config.fontEnd

/-! ### Outcomes of a cycle -/

/-- The cause codes of rule R281. -/
def ErrorKind.code (e : ErrorKind) : Nat :=
  match e with
  | .loadError => 1
  | .decodeError => 2
  | .stackUnderflow => 3
  | .stackOverflow => 4
  | .memReadOutOfBounds => 5
  | .memWriteOutOfBounds => 6
  | .fetchOutOfBounds => 7
  | .misalignedTarget => 8
  | .fontWriteViolation => 9
  | .keyIndexRange => 10
  | .indexRange => 11

/-- `emit` (rule R14): output events appended to the trace. -/
def emit (evs : List Output) (s : State) : State := { s with out := s.out ++ evs }

/-- The program counter moved `n` bytes on: 2 for the fetch advance of rule R122, 4 for a skip taken (rule R150). -/
def advancePc (n : Word) (s : State) : State := { s with pc := s.pc + n }

/-- An instruction that completes with PC at `pc0 + 2` (rule R129). A meaning is applied to the state BEFORE the fetch, so
`s.pc` is `pc0` throughout (log entry 9). -/
def complete (s : State) : Result := .next (advancePc 2 s)

/-- The reported outcome `report E(info)` (rule R284): the fetch advance stays, one `Diag` is emitted, nothing else. -/
def report (e : ErrorKind) (info : Nat) (s : State) : Result :=
  .next (advancePc 2 (emit [.diag ⟨e, s.pc, info⟩] s))

/-- The fatal outcome `raise E(info)` (rule R283), the machine's only exception: the error is recorded with `pc0`, RUN becomes
Halted and one `Diag` is emitted; PC is `pc0` and nothing else changes. There is no handler, no saved state and no return
(rule R286), so no operation beside this one brings the machine back: only reset does. -/
def raise (e : ErrorKind) (info : Nat) (s : State) : Result :=
  .next (emit [.diag ⟨e, s.pc, info⟩] { s with run := .halted, fault := some ⟨e, s.pc, info⟩ })

/-! ### Call stack -/

/-- Push (rule R29): `none` when all 16 entries are in use, the caller's StackOverflow. -/
def push (ret : Word) (s : State) : Option State :=
  if h : s.sp.val < Config.stackDepth then
    some { s with stack := s.stack.set s.sp.val ret h, sp := ⟨s.sp.val + 1, Nat.succ_lt_succ h⟩ }
  else none

/-- Pop (rule R30): the top entry and the stack without it, the entry keeping its bits; `none` when no entry is in use, the
caller's StackUnderflow. -/
def pop (s : State) : Option (Word × State) :=
  if h : s.sp.val = 0 then none
  else
    have := s.sp.isLt
    some (s.stack[s.sp.val - 1], { s with sp := ⟨s.sp.val - 1, by omega⟩ })

/-! ### Framebuffer -/

/-- The cell in column `px` of row `py` (rule R34). -/
def Framebuffer.pixel (fb : Framebuffer) (px : Fin 64) (py : Fin 32) : Bool := (fb.get py).get px

/-- The framebuffer with one cell inverted (rule R10). -/
def Framebuffer.flip (fb : Framebuffer) (px : Fin 64) (py : Fin 32) : Framebuffer :=
  fb.set py.val ((fb.get py).set px.val (!fb.pixel px py))

/-- Every cell off (rules R10 and R141). -/
def Framebuffer.clear : Framebuffer := Vector.replicate 32 (Vector.replicate 64 false)

/-! ### Random input -/

/-- The byte the next `draw()` returns (rules R8 and R194): the first that waits, or a free byte (log entry 7). -/
def drawnByte (s : State) : Byte :=
  match s.rnd with
  | [] => Config.freeRnd s.draws
  | r :: _ => r

/-- One draw consumed. -/
def consumeDraw (s : State) : State := { s with rnd := s.rnd.tail, draws := s.draws + 1 }

end Sys2Proof.Machine
end

