-- ==== Sys2Proof/Machine/Operands.lean ====
section
/-! DEFINITION. The operand forms of rule R93: a register, the address I with an offset, the registers V0 to Vx, and a
control-transfer target. -/

namespace Sys2Proof.Machine

/-- `V[r]` read (rule R14). -/
def readV (s : State) (r : RegNum) : Byte := s.v.get r

/-- `V[r] <- b` (rule R14): no register is hardwired or aliased (rule R21). -/
def writeV (r : RegNum) (b : Byte) (s : State) : State := { s with v := s.v.set r.val b }

/-- VF, general register 15 (rule R22). -/
def vf : RegNum := 15

/-- The last address of the `n` bytes at I, `I + n - 1` on unbounded integers (rule R70); asked for `n > 0` only. -/
def lastFromI (s : State) (n : Nat) : Nat := s.i.toNat + (n - 1)

/-- The bytes of V0 to Vx, x + 1 of them, V0 first (rule R236). -/
def regsUpTo (s : State) (x : RegNum) : List Byte := s.v.toList.take (x.val + 1)

/-- The registers after V0 to Vx are loaded from the bytes at I, `V[r]` from `I + r` (rule R240). -/
def loadedRegs (s : State) (x : RegNum) : Vector Byte 16 :=
  Vector.ofFn fun r => if r.val ≤ x.val then s.mem.read (s.i.toNat + r.val) else s.v.get r

/-- `zext_16(nnn)` (rule R93). -/
def addrWord (nnn : Addr12) : Word := nnn.setWidth 16

/-- The target `V[0] + nnn` of `Bnnn`, not reduced modulo 4096 (rule R192). -/
def offsetTarget (s : State) (nnn : Addr12) : Word := (readV s 0).setWidth 16 + nnn.setWidth 16

/-- A target whose bit 0 is 1 (rule R145). -/
def oddTarget (target : Word) : Bool := target.getLsbD 0

/-- `pc <- target` when the target is even, the fatal MisalignedTarget when it is odd (rule R145). The range is not checked
here but by the next fetch. -/
def jumpTo (target : Word) (s : State) : Result :=
  if oddTarget target then raise .misalignedTarget target.toNat s else .next { s with pc := target }

/-- A skip: `pc0 + 4` when the condition holds and `pc0 + 2` when it does not (rule R150). -/
def skipIf (cond : Bool) (s : State) : Result := .next (advancePc (if cond then 4 else 2) s)

end Sys2Proof.Machine
end

