-- ==== Sys2Proof/Machine/Flags.lean ====
section
/-! DEFINITION. The values VF receives (rules R22 and R186) and the order of the two writes (rule R187). -/

namespace Sys2Proof.Machine

/-- A flag as the byte VF holds: 0 or 1. -/
def flagByte (b : Bool) : Byte := if b then 1 else 0

/-- Carry of `a + b`: the 9-bit sum is over 255 (rule R186). -/
def carry (a b : Byte) : Bool := 255 < a.toNat + b.toNat

/-- No borrow in `a - b`: the minuend is at least the subtrahend (rule R186). -/
def noBorrow (a b : Byte) : Bool := b.toNat ≤ a.toNat

/-- The bit a right shift by one moves out (rule R180). -/
def lowBit (a : Byte) : Bool := a.getLsbD 0

/-- The bit a left shift by one moves out (rule R184). -/
def highBit (a : Byte) : Bool := a.getLsbD 7

/-- The result to `V[x]` first and the flag to VF last, so that with x = 15 the flag stands (rule R187). -/
def writeWithFlag (x : RegNum) (result : Byte) (flag : Bool) (s : State) : State :=
  writeV vf (flagByte flag) (writeV x result s)

end Sys2Proof.Machine
end

