-- ==== Sys2Proof/Machine/Alu.lean ====
section
/-! DEFINITION. Load and add immediate (rules R160 to R162) and the register-to-register operations (rules R170 to R188). Every
source is read from the state before the instruction, and only then is anything written (rule R126). -/

namespace Sys2Proof.Machine

/-- `6xkk` (rule R161). -/
def execLdImm (x : RegNum) (kk : Byte) (s : State) : Result := complete (writeV x kk s)

/-- `7xkk` (rule R162): 8-bit wrap-around, VF no flag. -/
def execAddImm (x : RegNum) (kk : Byte) (s : State) : Result := complete (writeV x (readV s x + kk) s)

/-- `8xy0` (rule R171). -/
def execLdReg (x y : RegNum) (s : State) : Result := complete (writeV x (readV s y) s)

/-- `8xy1` (rules R172 and R175). -/
def execOrReg (x y : RegNum) (s : State) : Result := complete (writeV x (readV s x ||| readV s y) s)

/-- `8xy2` (rules R173 and R175). -/
def execAndReg (x y : RegNum) (s : State) : Result := complete (writeV x (readV s x &&& readV s y) s)

/-- `8xy3` (rules R174 and R175). -/
def execXorReg (x y : RegNum) (s : State) : Result := complete (writeV x (readV s x ^^^ readV s y) s)

/-- `8xy4` (rule R176). -/
def execAddReg (x y : RegNum) (s : State) : Result :=
  let a := readV s x
  let b := readV s y
  complete (writeWithFlag x (a + b) (carry a b) s)

/-- `8xy5` (rule R178). -/
def execSubReg (x y : RegNum) (s : State) : Result :=
  let a := readV s x
  let b := readV s y
  complete (writeWithFlag x (a - b) (noBorrow a b) s)

/-- `8xy6` (rule R180): `y` selects nothing (rule R98, decision D30). -/
def execShr (x _y : RegNum) (s : State) : Result :=
  let a := readV s x
  complete (writeWithFlag x (a >>> 1) (lowBit a) s)

/-- `8xy7` (rule R182). -/
def execSubnReg (x y : RegNum) (s : State) : Result :=
  let a := readV s x
  let b := readV s y
  complete (writeWithFlag x (b - a) (noBorrow b a) s)

/-- `8xyE` (rule R184): `y` selects nothing (rule R98, decision D30). -/
def execShl (x _y : RegNum) (s : State) : Result :=
  let a := readV s x
  complete (writeWithFlag x (a <<< 1) (highBit a) s)

end Sys2Proof.Machine
end

