-- ==== Sys2Proof/Machine/Control.lean ====
section
/-! DEFINITION. Clear display, return, jump, call (rules R140 to R145). -/

namespace Sys2Proof.Machine

/-- `00E0` (rule R141). -/
def execCls (s : State) : Result := complete (emit [.displayClear] { s with fb := Framebuffer.clear })

/-- `00EE` (rule R142): nothing is added to the popped value, and its alignment is not checked. -/
def execRet (s : State) : Result :=
  match pop s with
  | none => raise .stackUnderflow 0 s
  | some (ret, s') => .next { s' with pc := ret }

/-- `1nnn` (rule R143). -/
def execJp (nnn : Addr12) (s : State) : Result := jumpTo (addrWord nnn) s

/-- `2nnn` (rule R144): the alignment is checked before the stack (rule R287), and the value pushed is `pc0 + 2`. -/
def execCall (nnn : Addr12) (s : State) : Result :=
  if oddTarget (addrWord nnn) then raise .misalignedTarget nnn.toNat s
  else
    match push (s.pc + 2) s with
    | none => raise .stackOverflow nnn.toNat s
    | some s' => .next { s' with pc := addrWord nnn }

end Sys2Proof.Machine
end

