-- ==== Sys2Proof/Machine/Draw.lean ====
section
/-! DEFINITION. Sprite draw (rules R200 to R206). -/

namespace Sys2Proof.Machine

/-- What the scan of a `Dxyn` carries: the framebuffer, whether a set bit met a cell that was on, and the `DisplayDraw`
events so far. -/
structure Canvas where
  fb : Framebuffer
  hit : Bool
  drawn : List Output
  deriving DecidableEq, Repr

/-- The column of a sprite pixel, `(V[x] + col) mod 64` (rule R201). -/
def wrapCol (x0 : Byte) (col : Nat) : Fin 64 := Fin.ofNat 64 (x0.toNat + col)

/-- The row of a sprite pixel, `(V[y] + row) mod 32` (rule R201). -/
def wrapRow (y0 : Byte) (row : Nat) : Fin 32 := Fin.ofNat 32 (y0.toNat + row)

/-- The sprite bit of column `col`: bit 7 is column 0 (rule R202). -/
def spriteBit (b : Byte) (col : Nat) : Bool := b.getLsbD (7 - col)

/-- `DisplayDraw(px, py)` for one set sprite bit: the cell is inverted, and a cell that was on makes the collision
(rules R10 and R203). -/
def drawPixel (px : Fin 64) (py : Fin 32) (c : Canvas) : Canvas :=
  let wasOn := c.fb.pixel px py
  { fb := c.fb.flip px py, hit := c.hit || wasOn, drawn := c.drawn ++ [.displayDraw px py wasOn] }

/-- One sprite row, columns ascending; a clear bit never touches its cell (rules R200 and R203). -/
def drawRow (b : Byte) (x0 y0 : Byte) (row : Nat) (c : Canvas) : Canvas :=
  (List.range 8).foldl (fun c col => if spriteBit b col then drawPixel (wrapCol x0 col) (wrapRow y0 row) c else c) c

/-- The whole scan, rows ascending, row `r` from the byte at `base + r` (rules R73 and R200). -/
def drawSprite (mem : Memory) (base : Nat) (x0 y0 : Byte) (n : Nat) (c : Canvas) : Canvas :=
  (List.range n).foldl (fun c row => drawRow (mem.read (base + row)) x0 y0 row c) c

/-- What a `Dxyn` with these coordinates and this height leaves (rule R200): VF is cleared before the scan, that is the scan
starts with no collision. -/
def scanned (x y : RegNum) (n : Nibble) (s : State) : Canvas :=
  drawSprite s.mem s.i.toNat (readV s x) (readV s y) n.toNat { fb := s.fb, hit := false, drawn := [] }

/-- `Dxyn` (rule R200): the coordinates are read before VF is written (rule R126), the whole sprite is checked before the first
row, and with n = 0 there is no check (rule R205). -/
def execDrw (x y : RegNum) (n : Nibble) (s : State) : Result :=
  if 0 < n.toNat && outOfBounds (lastFromI s n.toNat) then report .memReadOutOfBounds (lastFromI s n.toNat) s
  else
    let c := scanned x y n s
    complete (emit c.drawn (writeV vf (flagByte c.hit) { s with fb := c.fb }))

end Sys2Proof.Machine
end

