-- ==== Sys2Proof/Machine/FGroup.lean ====
section
/-! DEFINITION. The F group: timers, key wait, index arithmetic, font address, BCD, register save and load (rules R220 to
R240). -/

namespace Sys2Proof.Machine

/-- `Fx07` (rule R221). -/
def execLdVxDt (x : RegNum) (s : State) : Result := complete (writeV x s.dt s)

/-- `Fx0A`, entry (rule R222): presses from before the wait are forgotten, V[x] is not written yet. The wait itself is
`keyWaitCheck` (Cycle.lean). -/
def execLdVxK (x : RegNum) (s : State) : Result :=
  complete { s with newPress := false, run := .waitingForKey x }

/-- `Fx15` (rule R224). -/
def execLdDtVx (x : RegNum) (s : State) : Result := complete { s with dt := readV s x }

/-- `Fx18` (rule R226): the audio adapter is not commanded here. -/
def execLdStVx (x : RegNum) (s : State) : Result := complete { s with st := readV s x }

/-- `Fx1E` (rule R228): a sum that leaves the address range is reported and I keeps its value. -/
def execAddI (x : RegNum) (s : State) : Result :=
  let sum := s.i.toNat + (readV s x).toNat
  if outOfBounds sum then report .indexRange sum s else complete { s with i := BitVec.ofNat 16 sum }

/-- `Fx29` (rule R230): the formula on the whole byte. -/
def execLdF (x : RegNum) (s : State) : Result :=
  complete { s with i := BitVec.ofNat 16 ((readV s x).toNat * 5) }

/-- The three decimal digits, hundreds first (rule R232). -/
def bcdDigits (b : Byte) : List Byte :=
  [BitVec.ofNat 8 (b.toNat / 100), BitVec.ofNat 8 (b.toNat / 10 % 10), BitVec.ofNat 8 (b.toNat % 10)]

/-- A store of bytes at I: the font check, then the bounds check of the whole range, then every byte (rules R70 to R72, R232
and R236). I is unchanged. -/
def storeAtI (bs : List Byte) (s : State) : Result :=
  if inFont s.i.toNat then raise .fontWriteViolation s.i.toNat s
  else if outOfBounds (lastFromI s bs.length) then raise .memWriteOutOfBounds (lastFromI s bs.length) s
  else complete { s with mem := s.mem.writeBytes s.i.toNat bs }

/-- `Fx33` (rule R232). -/
def execLdB (x : RegNum) (s : State) : Result := storeAtI (bcdDigits (readV s x)) s

/-- `Fx55` (rule R236). -/
def execStoreRegs (x : RegNum) (s : State) : Result := storeAtI (regsUpTo s x) s

/-- `Fx65` (rule R240): out of bounds no register is loaded. -/
def execLoadRegs (x : RegNum) (s : State) : Result :=
  if outOfBounds (lastFromI s (x.val + 1)) then report .memReadOutOfBounds (lastFromI s (x.val + 1)) s
  else complete { s with v := loadedRegs s x }

end Sys2Proof.Machine
end

