-- ==== Sys2Proof/Machine/IndexRandom.lean ====
section
/-! DEFINITION. Set index, jump with offset, random (rules R190 to R194). -/

namespace Sys2Proof.Machine

/-- `Annn` (rule R191). -/
def execLdI (nnn : Addr12) (s : State) : Result := complete { s with i := addrWord nnn }

/-- `Bnnn` (rule R192): the offset register is V0 whatever `op[11:8]` is. -/
def execJpV0 (nnn : Addr12) (s : State) : Result := jumpTo (offsetTarget s nnn) s

/-- `Cxkk` (rule R194): exactly one draw is consumed. -/
def execRnd (x : RegNum) (kk : Byte) (s : State) : Result :=
  complete (consumeDraw (writeV x (drawnByte s &&& kk) s))

end Sys2Proof.Machine
end

