-- ==== Sys2Proof/Machine/Skips.lean ====
section
/-! DEFINITION. Register and immediate skips (rules R150 to R154) and key skips (rules R210 to R213). -/

namespace Sys2Proof.Machine

/-- `3xkk` (rule R151). -/
def execSeImm (x : RegNum) (kk : Byte) (s : State) : Result := skipIf (readV s x == kk) s

/-- `4xkk` (rule R152). -/
def execSneImm (x : RegNum) (kk : Byte) (s : State) : Result := skipIf (readV s x != kk) s

/-- `5xy0` (rule R153). -/
def execSeReg (x y : RegNum) (s : State) : Result := skipIf (readV s x == readV s y) s

/-- `9xy0` (rule R154). -/
def execSneReg (x y : RegNum) (s : State) : Result := skipIf (readV s x != readV s y) s

/-- A key skip: taken when `KEY[V[x]]` is `wanted`; a number above 15 names no key and is reported, never masked
(rule R213). -/
def keySkip (x : RegNum) (wanted : Bool) (s : State) : Result :=
  let k := (readV s x).toNat
  if h : k < 16 then skipIf (s.key[k] == wanted) s else report .keyIndexRange k s

/-- `Ex9E` (rule R211). -/
def execSkp (x : RegNum) (s : State) : Result := keySkip x true s

/-- `ExA1` (rule R212). -/
def execSknp (x : RegNum) (s : State) : Result := keySkip x false s

end Sys2Proof.Machine
end

