-- ==== Sys2Proof/Machine/Cycle.lean ====
section
/-! DEFINITION. One executor cycle (rules R120 to R130): fetch, decode and dispatch, or the key-wait check. -/

namespace Sys2Proof.Machine

/-- The word at PC, read from memory at the time of the cycle (rules R62, R80 and R122). -/
def fetchWord (s : State) : Word := s.mem.readWord s.pc.toNat

/-- One instruction cycle (rule R130): the fetch bounds of rule R121 first, then the decoder, then the instruction. A word that
is no instruction is the reported DecodeError of rule R128. -/
def instructionCycle (s : State) : Result :=
  if outOfBounds (s.pc.toNat + 1) then raise .fetchOutOfBounds s.pc.toNat s
  else
    match decodeWord (fetchWord s) with
    | .instr i => exec i s
    | .undefined _ => report .decodeError (fetchWord s).toNat s

/-- The key-wait check (rule R124): no fetch, no change of PC; on a new press the key is stored and the executor runs on. -/
def keyWaitCheck (t : RegNum) (s : State) : Result :=
  if s.newPress then .next { writeV t (BitVec.ofNat 8 s.lastKey.val) s with newPress := false, run := .running }
  else .next s

/-- One executor cycle, chosen by RUN (rule R120). In a mode without cycles it stops by that mode's name (rule R125). -/
def cycle (s : State) : Result :=
  match s.run with
  | .running => instructionCycle s
  | .waitingForKey t => keyWaitCheck t s
  | .halted => .fault .halted
  | .stopped => .fault .stopped
  | .loadFailed => .fault .loadFailed

end Sys2Proof.Machine
end

