-- ==== Sys2Proof/Machine/Frame.lean ====
section
/-! DEFINITION. The frame loop scheduler (rules R250 to R261): what each phase of a frame does, the phase after it, and the
whole frame as one function. -/

namespace Sys2Proof.Machine

/-- One input event applied (rule R252): only a `KeyDown` that finds its key up is a new press. -/
def applyEvent (s : State) (e : HostEvent) : State :=
  match e with
  | .keyDown k =>
    if s.key.get k then s else { s with key := s.key.set k.val true, lastKey := k, newPress := true }
  | .keyUp k => { s with key := s.key.set k.val false }
  | .quit => { s with quitPending := true }

/-- POLL of one `events` list, in list order (rule R252). -/
def poll (evs : List HostEvent) (s : State) : State := evs.foldl applyEvent s

/-- The `events` list of the next frame (rule R8): the first that waits, or a free list (log entry 6). -/
def frameEvents (s : State) : List HostEvent :=
  match s.events with
  | [] => Config.freeEvents s.polls
  | evs :: _ => evs

/-- AUDIO (rule R256): exactly one command, on the value ST has after the batch and before the tick. -/
def audioGate (s : State) : State :=
  if 0 < s.st.toNat then emit [.audioResume] { s with audioOn := true }
  else emit [.audioPause] { s with audioOn := false }

/-- A timer decremented if nonzero, never below 0 (rule R300). -/
def countDown (t : Byte) : Byte := if 0 < t.toNat then t - 1 else t

/-- `TimerTick()` (rule R300): the two counters, each on its own. -/
def timerTick (s : State) : State := { s with dt := countDown s.dt, st := countDown s.st }

/-- PRESENT (rule R258). -/
def presentFrame (s : State) : State := emit [.present] s

/-- END (rule R259): a pending quit stops the loop, also out of a key wait. -/
def endOfFrame (s : State) : State := if s.quitPending then { s with run := .stopped } else s

/-- Where the frame goes after slot `k` (rules R253 and R254): to the next slot, to AUDIO after the last one, and nowhere once
the slot has raised. -/
def afterSlot (k : Nat) (s : State) : State :=
  if s.run = .halted then s
  else { s with phase := if k + 1 < s.slotsPerFrame then .batch (k + 1) else .audio }

/-- The phase the state is in, performed (rule R250). POLL takes the next list; SLEEP has no effect (rule R260). -/
def performPhase (s : State) : Result :=
  match s.phase with
  | .poll => .next { poll (frameEvents s) s with phase := .batch 0, events := s.events.tail, polls := s.polls + 1 }
  | .batch k => andThen (cycle s) fun s' => .next (afterSlot k s')
  | .audio => .next { audioGate s with phase := .tick }
  | .tick => .next { timerTick s with phase := .present }
  | .present => .next { presentFrame s with phase := .sleep }
  | .sleep => .next { s with phase := .endFrame }
  | .endFrame => .next { endOfFrame s with phase := .poll }

/-- One step: the next phase or slot of the frame, as long as RUN is Running or WaitingForKey; in the other run states no frame
runs and no cycle is performed (rules R125 and R251). -/
def frameStep (s : State) : Result :=
  match s.run with
  | .running => performPhase s
  | .waitingForKey _ => performPhase s
  | .halted => .fault .halted
  | .stopped => .fault .stopped
  | .loadFailed => .fault .loadFailed

/-- `n` slots in a row, ended early by a fatal error (rules R253 and R254). -/
def batch (n : Nat) (s : State) : Result :=
  match n with
  | 0 => .next s
  | n + 1 => andThen (cycle s) fun s' => if s'.run = .halted then .next s' else batch n s'

/-- `Frame(events)` of rule R261 as one function, the frame's bookkeeping left out. -/
def frame (evs : List HostEvent) (s : State) : Result :=
  andThen (batch s.slotsPerFrame (poll evs s)) fun s' =>
    if s'.run = .halted then .next s' else .next (endOfFrame (presentFrame (timerTick (audioGate s'))))

end Sys2Proof.Machine
end

