-- ==== Sys2Proof/Machine/Reset.lean ====
section
/-! DEFINITION. Reset with a program image and the open parameters (rules R320 to R323), and the placing of one instruction
word where the next step fetches. -/

namespace Sys2Proof.Machine

/-- `Reset(rom)` (rule R320) with CYCLES_PER_FRAME `n`, the 80 bytes of FONT and FB_RESET: every element at its reset value,
the font written, the image loaded verbatim from 0x200 (rules R75 and R321). An image that does not fit leaves
RUN LoadFailed, the fault record and one `Diag`, and no byte of it in memory (rules R74, R285 and R322). -/
def resetWith (n : Nat) (font : Vector Byte 80) (fb : Framebuffer) (rom : List Byte) : State :=
  let s := { State.reset with slotsPerFrame := n, fb := fb, mem := Memory.writeBytes [] 0 font.toList }
  if wellFormedImage rom then { s with mem := s.mem.writeBytes Config.progBase rom }
  else emit [.diag ⟨.loadError, 0, rom.length⟩] { s with run := .loadFailed, fault := some ⟨.loadError, 0, rom.length⟩ }

/-- The slot of a batch the machine is at, or would start at. -/
def slotOf (p : Phase) : Nat :=
  match p with
  | .batch k => k
  | .poll | .audio | .tick | .present | .sleep | .endFrame => 0

/-- The two bytes of a word stored at PC, with the executor Running and the frame at a slot of its batch, so that the next step
is the instruction cycle that fetches it (log entry 13). It stands for the load of rule R321, the only writer that is not an
instruction. -/
def placeWord (op : Word) (s : State) : State :=
  { s with mem := s.mem.writeBytes s.pc.toNat (bytesOfWord op), run := .running, phase := .batch (slotOf s.phase) }

end Sys2Proof.Machine
end

