-- ==== Sys2Proof/Machine/Step.lean ====
section
/-! DEFINITION. One step of the machine, and the state in which the next step runs a given instruction word. -/

namespace Sys2Proof.Machine

/-- One step: one phase of a frame, or one slot of its batch (rule R250, log entry 1). -/
def step (s : State) : Host.Outcome State Fault Refusal := frameStep s

/-- `s` with the instruction that spec/opcode_table.json numbers `w` stored where the next step fetches (log entry 13). -/
def State.withFetchWord (s : State) (nbits w : Nat) : State := placeWord (tableWord nbits w) s

end Sys2Proof.Machine
end

