-- ==== Sys2Proof/Safety.lean ====
section
/-! DEFINITION. What counts as a safe run, in the terms claims use: the invariants of rule R44, a run without error (rule R284)
and the one good end (rule R263). -/

namespace Sys2Proof.Machine

/-- The invariants of rule R44 that a state can break, and the model's own: memory in canonical form within the address space,
CYCLES_PER_FRAME in the range of rule R6, and a slot number below it. The bounds of SP, the timers, the register numbers and
the key numbers hold by the types of the fields; that the font never changes is said of every step by itself. -/
structure State.Inv (s : State) : Prop where
  pc_even : s.pc.toNat % 2 = 0
  pc_le : s.pc.toNat ≤ 0x10FE
  i_le : s.i.toNat ≤ 0xFFF
  stack_valid : ∀ (j : Nat) (h : j < 16), j < s.sp.val → s.stack[j].toNat % 2 = 0 ∧ s.stack[j].toNat ≤ 0x1000
  mem_canonical : s.mem.wf
  mem_inSpace : s.mem.InSpace
  fault_iff : s.fault.isSome = true ↔ s.run = .halted ∨ s.run = .loadFailed
  slots_min : 8 ≤ s.slotsPerFrame
  slots_max : s.slotsPerFrame ≤ 16
  slot_lt : ∀ k, s.phase = .batch k → k < s.slotsPerFrame

/-- An output event that reports an error (rule R12). -/
def Output.isDiag (o : Output) : Bool :=
  match o with
  | .diag _ => true
  | .displayClear | .displayDraw _ _ _ | .present | .audioResume | .audioPause => false

/-- "Runs without error" as rule R284 reads it: no `Diag` in the trace. -/
def State.Clean (s : State) : Prop := ∀ o ∈ s.out, o.isDiag = false

/-- The only good end of a run: the host asked to quit (rule R263). -/
def State.GoodEnd (s : State) : Prop := s.run = .stopped

/-- Frames still run: RUN is Running or WaitingForKey (rule R251). -/
def State.FramesRun (s : State) : Prop := s.run = .running ∨ ∃ t, s.run = .waitingForKey t

/-! ### The terms in which claims say what a cycle did -/

/-- The state a fatal error leaves (rule R283): RUN Halted, the record in FAULT, one `Diag`, nothing else. -/
def haltedBy (e : ErrorKind) (info : Nat) (s : State) : State :=
  { s with run := .halted, fault := some ⟨e, s.pc, info⟩, out := s.out ++ [.diag ⟨e, s.pc, info⟩] }

/-- The state a reported error leaves (rule R284): PC at `pc0 + 2`, one `Diag`, nothing else. -/
def reportedBy (e : ErrorKind) (info : Nat) (s : State) : State :=
  { s with pc := s.pc + 2, out := s.out ++ [.diag ⟨e, s.pc, info⟩] }

/-- The errors of rule R282 that an instruction can report or raise. -/
def errorsOf (i : Instr) : List ErrorKind :=
  match i with
  | .ret => [.stackUnderflow]
  | .jp _ | .jpV0 _ => [.misalignedTarget]
  | .call _ => [.misalignedTarget, .stackOverflow]
  | .drw _ _ _ | .loadRegs _ => [.memReadOutOfBounds]
  | .skp _ | .sknp _ => [.keyIndexRange]
  | .addI _ => [.indexRange]
  | .ldB _ | .storeRegs _ => [.fontWriteViolation, .memWriteOutOfBounds]
  | .cls | .seImm _ _ | .sneImm _ _ | .seReg _ _ | .ldImm _ _ | .addImm _ _ | .ldReg _ _ | .orReg _ _ | .andReg _ _
  | .xorReg _ _ | .addReg _ _ | .subReg _ _ | .shr _ _ | .subnReg _ _ | .shl _ _ | .sneReg _ _ | .ldI _ | .rnd _ _
  | .ldVxDt _ | .ldVxK _ | .ldDtVx _ | .ldStVx _ | .ldF _ => []

/-- An error of the class "fatal" of rule R281. -/
def ErrorKind.fatal (e : ErrorKind) : Bool :=
  match e with
  | .stackUnderflow | .stackOverflow | .memWriteOutOfBounds | .fetchOutOfBounds | .misalignedTarget
  | .fontWriteViolation => true
  | .loadError | .decodeError | .memReadOutOfBounds | .keyIndexRange | .indexRange => false

/-- The general registers an instruction may write: the rows "write" of the table of rule R23. A register the wait of `Fx0A`
writes is written by its completion, not by the instruction. -/
def writesReg (i : Instr) (r : RegNum) : Bool :=
  match i with
  | .ldImm x _ | .addImm x _ | .ldReg x _ | .orReg x _ | .andReg x _ | .xorReg x _ | .rnd x _ | .ldVxDt x => r == x
  | .addReg x _ | .subReg x _ | .shr x _ | .subnReg x _ | .shl x _ => r == x || r == 15
  | .drw _ _ _ => r == 15
  | .loadRegs x => r ≤ x
  | .cls | .ret | .jp _ | .call _ | .seImm _ _ | .sneImm _ _ | .seReg _ _ | .sneReg _ _ | .ldI _ | .jpV0 _ | .skp _
  | .sknp _ | .ldVxK _ | .ldDtVx _ | .ldStVx _ | .addI _ | .ldF _ | .ldB _ | .storeRegs _ => false

/-- Some bit of the sprite of `n` rows at `base`, drawn at (`x0`, `y0`), is set and falls on the cell in column `px` of row
`py` (rules R200 to R202). -/
def spriteSets (mem : Memory) (base : Nat) (x0 y0 : Byte) (n : Nat) (px : Fin 64) (py : Fin 32) : Prop :=
  ∃ row < n, ∃ col < 8, (mem.read (base + row)).getLsbD (7 - col) = true ∧
    (x0.toNat + col) % 64 = px.val ∧ (y0.toNat + row) % 32 = py.val

/-- The cells the set bits of a sprite fall on, rows ascending and columns ascending (rules R200 and R204). -/
def spriteCells (mem : Memory) (base : Nat) (x0 y0 : Byte) (n : Nat) : List (Fin 64 × Fin 32) :=
  (List.range n).flatMap fun row =>
    ((List.range 8).filter fun col => (mem.read (base + row)).getLsbD (7 - col)).map fun col =>
      (Fin.ofNat 64 (x0.toNat + col), Fin.ofNat 32 (y0.toNat + row))

/-- `k` steps in a row, as far as they go: `Host.Core.run` of this machine (Laws/Frame.lean). -/
def steps (k : Nat) (s : State) : Result :=
  match k with
  | 0 => .next s
  | k + 1 => andThen (step s) (steps k)

/-- A function applied to the next state, where there is one. -/
def mapNext (f : State → State) (r : Result) : Result :=
  match r with
  | .next s => .next (f s)
  | .fault e => .fault e
  | .refused e => .refused e

end Sys2Proof.Machine
end

