-- ==== Sys2Proof/Certificates/Slice0/Obligations.lean ====
section
/-! DEFINITION. The statements for the provers. `exec i s` is applied to the state before the fetch, so `s.pc` is `pc0` and the
state it answers holds the PC after the cycle. A frame is written `t = { s with … }`: every field that is not named is as
before, all of memory among them. -/

open Sys2Proof Sys2Proof.Machine

/-! ### Encoding -/

/-- One word of each encoding format, written out from the patterns of rule R96, decodes to its instruction. -/
def Obligations.SpecWordsDecode : Prop :=
  decodeWord 0b0000000011100000 = .instr .cls ∧
  decodeWord 0b0001101010111100 = .instr (.jp 0xABC) ∧
  decodeWord 0b0011001100101010 = .instr (.seImm 3 0x2A) ∧
  decodeWord 0b1000000100100101 = .instr (.subReg 1 2) ∧
  decodeWord 0b1101000100100101 = .instr (.drw 1 2 5) ∧
  decodeWord 0b1110001010011110 = .instr (.skp 2) ∧
  decodeWord 0b1111001001010101 = .instr (.storeRegs 2) ∧
  decodeWord 0b1000000100101000 = .undefined .family8

/-- Decoding the word, or the bytes, of any instruction gives the instruction back, and the bytes after it are left. -/
def Obligations.DecodeOfEncodeIsTheInstruction : Prop :=
  ∀ (i : Instr) (rest : List Byte),
    decodeWord (encode i) = .instr i ∧ decodeBytes (encodeBytes i ++ rest) = (.instr i, rest)

/-- No bit of a word is dropped: a word that decodes to an instruction is that instruction's own encoding. -/
def Obligations.EncodeOfDecodeIsTheWord : Prop :=
  ∀ (op : Word) (i : Instr), decodeWord op = .instr i → encode i = op

/-- Rule R94: a word decodes to an instruction exactly when a row of the opcode map selects it, that row is the instruction's,
and no other row selects the word. -/
def Obligations.DecoderFollowsTheOpcodeMap : Prop :=
  ∀ op : Word,
    ((∃ i, decodeWord op = .instr i) ↔ wellFormedWord op = true) ∧
    (∀ i, decodeWord op = .instr i →
      (rowOf i).selects op = true ∧ ∀ r ∈ opcodeMap, r.selects op = true → r = rowOf i)

/-- Rules R95 and R100 in prose form: which words are undefined, family by family, and under which name. -/
def Obligations.UndefinedWordsByFamily : Prop :=
  ∀ (op : Word) (r : Reject), decodeWord op = .undefined r ↔
    (r = .family0 ∧ op.toNat / 4096 = 0 ∧ op.toNat ≠ 0x00E0 ∧ op.toNat ≠ 0x00EE) ∨
    (r = .family5 ∧ op.toNat / 4096 = 5 ∧ op.toNat % 16 ≠ 0) ∨
    (r = .family8 ∧ op.toNat / 4096 = 8 ∧ op.toNat % 16 ∈ [8, 9, 0xA, 0xB, 0xC, 0xD, 0xF]) ∨
    (r = .family9 ∧ op.toNat / 4096 = 9 ∧ op.toNat % 16 ≠ 0) ∨
    (r = .familyE ∧ op.toNat / 4096 = 0xE ∧ op.toNat % 256 ∉ [0x9E, 0xA1]) ∨
    (r = .familyF ∧ op.toNat / 4096 = 0xF ∧
      op.toNat % 256 ∉ [0x07, 0x0A, 0x15, 0x18, 0x1E, 0x29, 0x33, 0x55, 0x65])

/-! ### The executor cycle -/

/-- A slot of a batch in mode Running whose two bytes at PC decode to `i` is `exec i`, and after it the frame moves to its next
slot, or to AUDIO after the last (rules R122, R123, R250 and R253). That a slot is one step, and that `exec` takes the state
before the fetch, is the model's choice (log entries 1 and 9), and so is that the phase keeps its slot when the slot halted
(log entry 12). -/
def Obligations.StepRunsTheDecodedInstruction : Prop :=
  ∀ (s : State) (k : Nat) (i : Instr), s.run = .running → s.phase = .batch k → s.pc.toNat ≤ 0xFFE →
    (decodeBytes [s.mem.read s.pc.toNat, s.mem.read (s.pc.toNat + 1)]).1 = .instr i →
    step s = andThen (exec i s) fun t =>
      .next (if t.run = .halted then t
        else { t with phase := if k + 1 < t.slotsPerFrame then .batch (k + 1) else .audio })

/-- An undefined word is a reported DecodeError with the word as its info, PC 2 on and nothing else changed (rule R128); its code
is 2 (decision D19), and the frame moves to its next slot, or to AUDIO after the last (rules R250 and R253, as the steps of log
entry 1). -/
def Obligations.UndefinedWordIsReported : Prop :=
  ErrorKind.decodeError.code = 2 ∧ ∀ (s : State) (k : Nat) (r : Reject), s.run = .running → s.phase = .batch k → s.pc.toNat ≤ 0xFFE →
    decodeWord (s.mem.readWord s.pc.toNat) = .undefined r →
    step s = .next { s with
      pc := s.pc + 2
      out := s.out ++ [.diag ⟨.decodeError, s.pc, (s.mem.readWord s.pc.toNat).toNat⟩]
      phase := if k + 1 < s.slotsPerFrame then .batch (k + 1) else .audio }

/-- A fetch from a PC above 0xFFE halts with FetchOutOfBounds (the spec's decision D10, its exact effect D18). That the phase
keeps the slot that raised is the model's choice (log entry 12). -/
def Obligations.FetchPastMemoryHalts : Prop :=
  ∀ (s : State) (k : Nat), s.run = .running → s.phase = .batch k → 0xFFE < s.pc.toNat →
    step s = .next (haltedBy .fetchOutOfBounds s.pc.toNat s)

/-- The three outcomes of an instruction (rule R16): it completes without a `Diag`, it reports one of its errors of rule R282,
or it raises one (the exact effect is decision D18). -/
def Obligations.EveryInstructionCompletesReportsOrRaises : Prop :=
  ∀ (i : Instr) (s : State), s.run = .running →
    (∃ t ds, exec i s = .next t ∧ t.run ≠ .halted ∧ t.fault = s.fault ∧ t.out = s.out ++ ds ∧
      ∀ o ∈ ds, o.isDiag = false) ∨
    (∃ e ∈ errorsOf i, ∃ info, e.fatal = false ∧ exec i s = .next (reportedBy e info s)) ∨
    (∃ e ∈ errorsOf i, ∃ info, e.fatal = true ∧ exec i s = .next (haltedBy e info s))

/-- The table of rule R25: where PC stands after an instruction cycle. An odd target, an empty or a full stack and a fatal
store halt with PC at `pc0` (decisions D9, D11, D13 and D18). -/
def Obligations.PcAfterEachInstruction : Prop :=
  ∀ (i : Instr) (s t : State), s.run = .running → exec i s = .next t →
    (t.run = .halted → t.pc = s.pc) ∧
    (t.run ≠ .halted →
      match i with
      | .jp nnn | .call nnn => t.pc.toNat = nnn.toNat
      | .jpV0 nnn => t.pc.toNat = (s.v.get 0).toNat + nnn.toNat
      | .ret => ∃ j : Fin 16, j.val + 1 = s.sp.val ∧ t.pc = s.stack.get j
      | .seImm x kk => t.pc = if s.v.get x = kk then s.pc + 4 else s.pc + 2
      | .sneImm x kk => t.pc = if s.v.get x = kk then s.pc + 2 else s.pc + 4
      | .seReg x y => t.pc = if s.v.get x = s.v.get y then s.pc + 4 else s.pc + 2
      | .sneReg x y => t.pc = if s.v.get x = s.v.get y then s.pc + 2 else s.pc + 4
      | .skp x => t.pc = if ∃ k : Fin 16, k.val = (s.v.get x).toNat ∧ s.key.get k = true then s.pc + 4 else s.pc + 2
      | .sknp x => t.pc = if ∃ k : Fin 16, k.val = (s.v.get x).toNat ∧ s.key.get k = false then s.pc + 4 else s.pc + 2
      | _ => t.pc = s.pc + 2)

/-- Rule R23: a general register that the table does not list for an instruction keeps its value. -/
def Obligations.RegistersWrittenAsTheTableSays : Prop :=
  ∀ (i : Instr) (s t : State) (r : RegNum), exec i s = .next t → writesReg i r = false → t.v.get r = s.v.get r

/-- Every element of the state besides the general registers, PC, RUN, FAULT and the trace is written only by the instructions
its rule names (rules R27, R28, R31, R32, R34, R65, R82); the keypad, the pending quit, the audio output and the frame's
bookkeeping are written by none. -/
def Obligations.ElementsWrittenOnlyByTheirInstructions : Prop :=
  ∀ (i : Instr) (s t : State), exec i s = .next t →
    (t.i ≠ s.i → (∃ nnn, i = .ldI nnn) ∨ (∃ x, i = .addI x) ∨ ∃ x, i = .ldF x) ∧
    (t.sp ≠ s.sp → (∃ nnn, i = .call nnn) ∨ i = .ret) ∧
    (t.stack ≠ s.stack → ∃ nnn, i = .call nnn) ∧
    (t.dt ≠ s.dt → ∃ x, i = .ldDtVx x) ∧
    (t.st ≠ s.st → ∃ x, i = .ldStVx x) ∧
    (t.mem ≠ s.mem → (∃ x, i = .ldB x) ∨ ∃ x, i = .storeRegs x) ∧
    (t.fb ≠ s.fb → i = .cls ∨ ∃ x y n, i = .drw x y n) ∧
    (t.newPress ≠ s.newPress → ∃ x, i = .ldVxK x) ∧
    (t.draws ≠ s.draws → ∃ x kk, i = .rnd x kk) ∧
    (t.rnd ≠ s.rnd → ∃ x kk, i = .rnd x kk) ∧
    t.key = s.key ∧ t.lastKey = s.lastKey ∧ t.quitPending = s.quitPending ∧ t.audioOn = s.audioOn ∧
    t.phase = s.phase ∧ t.slotsPerFrame = s.slotsPerFrame ∧ t.events = s.events ∧ t.polls = s.polls

/-! ### Clear display, return, jump, call -/

/-- Rule R141: every cell off, one `DisplayClear`, nothing else changed but PC. -/
def Obligations.ClearDisplay : Prop :=
  ∀ s : State, ∃ t, exec .cls s = .next t ∧ (∀ px py, t.fb.pixel px py = false) ∧
    t = { s with fb := t.fb, pc := s.pc + 2, out := s.out ++ [.displayClear] }

/-- `00EE` with an entry in use pops it into PC and changes nothing else; with none it halts with StackUnderflow (rules R30 and
R142; the exact effect of the halt is decision D18). -/
def Obligations.ReturnPopsOrHalts : Prop :=
  ∀ s : State,
    (s.sp.val = 0 → exec .ret s = .next (haltedBy .stackUnderflow 0 s)) ∧
    (0 < s.sp.val → ∃ t, exec .ret s = .next t ∧ t.sp.val + 1 = s.sp.val ∧
      (∃ j : Fin 16, j.val = t.sp.val ∧ t.pc = s.stack.get j) ∧ t = { s with sp := t.sp, pc := t.pc })

/-- `1nnn` goes to an even target and changes nothing but PC; an odd target halts with MisalignedTarget (rule R143; decisions D9
and D18). -/
def Obligations.JumpToEvenTarget : Prop :=
  ∀ (nnn : Addr12) (s : State),
    (nnn.toNat % 2 = 0 → ∃ t, exec (.jp nnn) s = .next t ∧ t.pc.toNat = nnn.toNat ∧ t = { s with pc := t.pc }) ∧
    (nnn.toNat % 2 = 1 → exec (.jp nnn) s = .next (haltedBy .misalignedTarget nnn.toNat s))

/-- `2nnn` pushes `pc0 + 2` and goes to an even target; an odd target halts first, a full stack halts next, and neither pushes
(rules R29 and R144; decisions D9, D18 and D20). -/
def Obligations.CallPushesAndJumps : Prop :=
  ∀ (nnn : Addr12) (s : State),
    (nnn.toNat % 2 = 1 → exec (.call nnn) s = .next (haltedBy .misalignedTarget nnn.toNat s)) ∧
    (nnn.toNat % 2 = 0 → s.sp.val = 16 → exec (.call nnn) s = .next (haltedBy .stackOverflow nnn.toNat s)) ∧
    (nnn.toNat % 2 = 0 → s.sp.val < 16 → ∃ t, exec (.call nnn) s = .next t ∧
      t.pc.toNat = nnn.toNat ∧ t.sp.val = s.sp.val + 1 ∧
      (∀ j : Fin 16, t.stack.get j = if j.val = s.sp.val then s.pc + 2 else s.stack.get j) ∧
      t = { s with pc := t.pc, sp := t.sp, stack := t.stack })

/-- A return whose stack is the one a call left comes back to the instruction after the call, with the stack pointer and every
entry below it as before the call, at any depth up to the capacity. -/
def Obligations.ReturnUndoesCall : Prop :=
  ∀ (nnn : Addr12) (s : State), nnn.toNat % 2 = 0 → s.sp.val < 16 →
    ∃ t, exec (.call nnn) s = .next t ∧
      ∀ t' : State, t'.sp = t.sp → t'.stack = t.stack →
        ∃ u, exec .ret t' = .next u ∧ u.pc = s.pc + 2 ∧ u.sp = s.sp ∧
          (∀ j : Fin 16, j.val < s.sp.val → u.stack.get j = s.stack.get j) ∧ u = { t' with pc := u.pc, sp := u.sp }

/-! ### Skips -/

/-- Rules R151 to R154: `3xkk` and `4xkk` skip one instruction when `V[x]` equals, or differs from, the immediate, `5xy0` and
`9xy0` when the registers are equal, or differ; nothing but PC changes. -/
def Obligations.ImmediateAndRegisterSkips : Prop :=
  ∀ (x y : RegNum) (kk : Byte) (s : State),
    exec (.seImm x kk) s = .next { s with pc := if (s.v.get x).toNat = kk.toNat then s.pc + 4 else s.pc + 2 } ∧
    exec (.sneImm x kk) s = .next { s with pc := if (s.v.get x).toNat = kk.toNat then s.pc + 2 else s.pc + 4 } ∧
    exec (.seReg x y) s = .next { s with pc := if (s.v.get x).toNat = (s.v.get y).toNat then s.pc + 4 else s.pc + 2 } ∧
    exec (.sneReg x y) s = .next { s with pc := if (s.v.get x).toNat = (s.v.get y).toNat then s.pc + 2 else s.pc + 4 }

/-- `Ex9E` and `ExA1` skip by the key flag that `V[x]` names; a number above 15 is reported and nothing is skipped (rules R211
and R212; the report is decision D14). -/
def Obligations.KeySkips : Prop :=
  ∀ (x : RegNum) (s : State),
    (∀ k : KeyNum, (s.v.get x).toNat = k.val →
      exec (.skp x) s = .next { s with pc := if s.key.get k = true then s.pc + 4 else s.pc + 2 } ∧
      exec (.sknp x) s = .next { s with pc := if s.key.get k = true then s.pc + 2 else s.pc + 4 }) ∧
    (15 < (s.v.get x).toNat →
      exec (.skp x) s = .next (reportedBy .keyIndexRange (s.v.get x).toNat s) ∧
      exec (.sknp x) s = .next (reportedBy .keyIndexRange (s.v.get x).toNat s))

/-! ### Loads, ALU -/

/-- Rules R161 and R171: `6xkk` and `8xy0` write `V[x]`, VF like any register, and nothing else but PC changes. -/
def Obligations.LoadsOfARegister : Prop :=
  ∀ (x y : RegNum) (kk : Byte) (s : State),
    (∃ t, exec (.ldImm x kk) s = .next t ∧ (∀ r, t.v.get r = if r = x then kk else s.v.get r) ∧
      t = { s with v := t.v, pc := s.pc + 2 }) ∧
    (∃ t, exec (.ldReg x y) s = .next t ∧ (∀ r, t.v.get r = if r = x then s.v.get y else s.v.get r) ∧
      t = { s with v := t.v, pc := s.pc + 2 })

/-- Rule R162: `7xkk` adds modulo 256 and writes no flag: VF changes only when x is 15. -/
def Obligations.AddImmediateWraps : Prop :=
  ∀ (x : RegNum) (kk : Byte) (s : State), ∃ t, exec (.addImm x kk) s = .next t ∧
    (∀ r, (t.v.get r).toNat =
      if r = x then ((s.v.get x).toNat + kk.toNat) % 256 else (s.v.get r).toNat) ∧
    t = { s with v := t.v, pc := s.pc + 2 }

/-- Rules R172 to R175: `8xy1`, `8xy2` and `8xy3` combine the registers bit by bit; VF changes only when x is 15. -/
def Obligations.BitwiseOperations : Prop :=
  ∀ (x y : RegNum) (s : State),
    (∃ t, exec (.orReg x y) s = .next t ∧ t = { s with v := t.v, pc := s.pc + 2 } ∧
      (∀ r, r ≠ x → t.v.get r = s.v.get r) ∧
      ∀ b, (t.v.get x).getLsbD b = ((s.v.get x).getLsbD b || (s.v.get y).getLsbD b)) ∧
    (∃ t, exec (.andReg x y) s = .next t ∧ t = { s with v := t.v, pc := s.pc + 2 } ∧
      (∀ r, r ≠ x → t.v.get r = s.v.get r) ∧
      ∀ b, (t.v.get x).getLsbD b = ((s.v.get x).getLsbD b && (s.v.get y).getLsbD b)) ∧
    (∃ t, exec (.xorReg x y) s = .next t ∧ t = { s with v := t.v, pc := s.pc + 2 } ∧
      (∀ r, r ≠ x → t.v.get r = s.v.get r) ∧
      ∀ b, (t.v.get x).getLsbD b = ((s.v.get x).getLsbD b != (s.v.get y).getLsbD b))

/-- `8xy4`: the sum modulo 256 in `V[x]`, the carry in VF, VF last, the operands read first (rules R176, R186 and R187; decisions
D7 and D8 for x or y = 15). -/
def Obligations.AddWithCarry : Prop :=
  ∀ (x y : RegNum) (s : State), ∃ t, exec (.addReg x y) s = .next t ∧
    (∀ r, (t.v.get r).toNat =
      if r = 15 then (if (s.v.get x).toNat + (s.v.get y).toNat > 255 then 1 else 0)
      else if r = x then ((s.v.get x).toNat + (s.v.get y).toNat) % 256 else (s.v.get r).toNat) ∧
    t = { s with v := t.v, pc := s.pc + 2 }

/-- `8xy5` and `8xy7`: the difference modulo 256 in `V[x]`, no-borrow in VF, VF last, the operands read first (rules R178, R182,
R186 and R187; decisions D7 and D8 for x or y = 15). -/
def Obligations.SubtractWithNoBorrow : Prop :=
  ∀ (x y : RegNum) (s : State),
    (∃ t, exec (.subReg x y) s = .next t ∧
      (∀ r, (t.v.get r).toNat =
        if r = 15 then (if (s.v.get x).toNat ≥ (s.v.get y).toNat then 1 else 0)
        else if r = x then ((s.v.get x).toNat + 256 - (s.v.get y).toNat) % 256 else (s.v.get r).toNat) ∧
      t = { s with v := t.v, pc := s.pc + 2 }) ∧
    (∃ t, exec (.subnReg x y) s = .next t ∧
      (∀ r, (t.v.get r).toNat =
        if r = 15 then (if (s.v.get y).toNat ≥ (s.v.get x).toNat then 1 else 0)
        else if r = x then ((s.v.get y).toNat + 256 - (s.v.get x).toNat) % 256 else (s.v.get r).toNat) ∧
      t = { s with v := t.v, pc := s.pc + 2 })

/-- `8xy6` and `8xyE`: `V[x]` shifted by one with 0 shifted in, the bit shifted out in VF, VF last; y selects nothing (rules R98,
R180, R184 and R187; decisions D8 and D30). -/
def Obligations.ShiftsByOne : Prop :=
  ∀ (x y : RegNum) (s : State),
    (∃ t, exec (.shr x y) s = .next t ∧
      (∀ r, (t.v.get r).toNat =
        if r = 15 then (s.v.get x).toNat % 2 else if r = x then (s.v.get x).toNat / 2 else (s.v.get r).toNat) ∧
      t = { s with v := t.v, pc := s.pc + 2 }) ∧
    (∃ t, exec (.shl x y) s = .next t ∧
      (∀ r, (t.v.get r).toNat =
        if r = 15 then (s.v.get x).toNat / 128
        else if r = x then (s.v.get x).toNat * 2 % 256 else (s.v.get r).toNat) ∧
      t = { s with v := t.v, pc := s.pc + 2 })

/-! ### Index, jump with offset, random -/

/-- Rule R191: `Annn` writes I and changes nothing else but PC. -/
def Obligations.SetIndex : Prop :=
  ∀ (nnn : Addr12) (s : State), ∃ t, exec (.ldI nnn) s = .next t ∧ t.i.toNat = nnn.toNat ∧
    t = { s with i := t.i, pc := s.pc + 2 }

/-- `Bnnn` goes to `V[0] + nnn`, neither wrapped nor range-checked, when the sum is even; an odd sum halts (rule R192;
decisions D9 and D18). -/
def Obligations.JumpWithOffset : Prop :=
  ∀ (nnn : Addr12) (s : State),
    (((s.v.get 0).toNat + nnn.toNat) % 2 = 0 → ∃ t, exec (.jpV0 nnn) s = .next t ∧
      t.pc.toNat = (s.v.get 0).toNat + nnn.toNat ∧ t = { s with pc := t.pc }) ∧
    (((s.v.get 0).toNat + nnn.toNat) % 2 = 1 →
      exec (.jpV0 nnn) s = .next (haltedBy .misalignedTarget ((s.v.get 0).toNat + nnn.toNat) s))

/-- `Cxkk` masks one byte of the random input and consumes exactly that draw: the first byte that waits, or, when none waits,
a byte under no law (rule R194, decision D23, log entry 7). -/
def Obligations.RandomByteIsMasked : Prop :=
  ∀ (x : RegNum) (kk : Byte) (s : State),
    (∀ (r : Byte) (rest : List Byte), s.rnd = r :: rest → ∃ t, exec (.rnd x kk) s = .next t ∧
      (∀ q, t.v.get q = if q = x then r &&& kk else s.v.get q) ∧
      t = { s with v := t.v, pc := s.pc + 2, rnd := rest, draws := s.draws + 1 }) ∧
    (s.rnd = [] → ∃ r t, exec (.rnd x kk) s = .next t ∧
      (∀ q, t.v.get q = if q = x then r &&& kk else s.v.get q) ∧
      t = { s with v := t.v, pc := s.pc + 2, draws := s.draws + 1 })

/-! ### Sprite draw -/

/-- `Dxyn` within memory inverts exactly the cells a set sprite bit falls on, sets VF to 1 exactly when one of them was on and to
0 otherwise, and changes nothing else but PC and the trace, to which it adds only `DisplayDraw` events (rules R200 to R204;
decisions D7, D21 and D22). -/
def Obligations.DrawInvertsTheSpriteCells : Prop :=
  ∀ (x y : RegNum) (n : Nibble) (s : State), (n.toNat = 0 ∨ s.i.toNat + n.toNat - 1 ≤ 0xFFF) →
    ∃ t ds, exec (.drw x y n) s = .next t ∧
      (∀ px py, (t.fb.pixel px py ≠ s.fb.pixel px py) ↔
        spriteSets s.mem s.i.toNat (s.v.get x) (s.v.get y) n.toNat px py) ∧
      ((∃ px py, spriteSets s.mem s.i.toNat (s.v.get x) (s.v.get y) n.toNat px py ∧ s.fb.pixel px py = true) →
        t.v.get 15 = 1) ∧
      ((¬ ∃ px py, spriteSets s.mem s.i.toNat (s.v.get x) (s.v.get y) n.toNat px py ∧ s.fb.pixel px py = true) →
        t.v.get 15 = 0) ∧
      (∀ r, r ≠ 15 → t.v.get r = s.v.get r) ∧
      (∀ o ∈ ds, ∃ px py b, o = .displayDraw px py b) ∧
      t = { s with fb := t.fb, v := t.v, pc := s.pc + 2, out := s.out ++ ds }

/-- The `DisplayDraw` events of a `Dxyn`: one for each set sprite bit, rows and columns ascending, each with the bit that says
whether the cell was on before the instruction, since no cell is touched twice (rules R200 and R204). -/
def Obligations.DrawEventsInScanOrder : Prop :=
  ∀ (x y : RegNum) (n : Nibble) (s : State), (n.toNat = 0 ∨ s.i.toNat + n.toNat - 1 ≤ 0xFFF) →
    ∃ t, exec (.drw x y n) s = .next t ∧
      t.out = s.out ++ (spriteCells s.mem s.i.toNat (s.v.get x) (s.v.get y) n.toNat).map
        fun c => .displayDraw c.1 c.2 (s.fb.pixel c.1 c.2)

/-- A sprite that leaves memory is reported and nothing is drawn; VF is not cleared (rule R205, decision D11). -/
def Obligations.DrawPastMemoryIsReported : Prop :=
  ∀ (x y : RegNum) (n : Nibble) (s : State), 0 < n.toNat → 0xFFF < s.i.toNat + n.toNat - 1 →
    exec (.drw x y n) s = .next (reportedBy .memReadOutOfBounds (s.i.toNat + n.toNat - 1) s)

/-- Drawing the same sprite twice at the same place restores the framebuffer. The second draw collides exactly when some cell of
the sprite was off before the first: rule R206 says "if the sprite has at least one set bit", which by rules R200 and R203 holds
only where such a cell was off (log entry 16). -/
def Obligations.DrawTwiceRestoresTheDisplay : Prop :=
  ∀ (x y : RegNum) (n : Nibble) (s t : State), (n.toNat = 0 ∨ s.i.toNat + n.toNat - 1 ≤ 0xFFF) →
    exec (.drw x y n) s = .next t → t.v.get x = s.v.get x → t.v.get y = s.v.get y →
    ∃ u, exec (.drw x y n) t = .next u ∧ u.fb = s.fb ∧
      (u.v.get 15 = 1 ↔
        ∃ px py, spriteSets s.mem s.i.toNat (s.v.get x) (s.v.get y) n.toNat px py ∧ s.fb.pixel px py = false)

/-! ### The F group -/

/-- Rules R221, R224 and R226: `Fx07` reads DT, `Fx15` and `Fx18` write the timers, and nothing else changes but PC. -/
def Obligations.TimerInstructions : Prop :=
  ∀ (x : RegNum) (s : State),
    (∃ t, exec (.ldVxDt x) s = .next t ∧ (∀ r, t.v.get r = if r = x then s.dt else s.v.get r) ∧
      t = { s with v := t.v, pc := s.pc + 2 }) ∧
    exec (.ldDtVx x) s = .next { s with dt := s.v.get x, pc := s.pc + 2 } ∧
    exec (.ldStVx x) s = .next { s with st := s.v.get x, pc := s.pc + 2 }

/-- Rule R222: `Fx0A` enters the wait for register x and forgets earlier presses; V[x] is not written yet. -/
def Obligations.KeyWaitEntry : Prop :=
  ∀ (x : RegNum) (s : State),
    exec (.ldVxK x) s = .next { s with newPress := false, run := .waitingForKey x, pc := s.pc + 2 }

/-- `Fx1E` adds to I within the address range; a sum above 0xFFF is reported and I keeps its value; VF is written in neither case
(rule R228, decision D12). -/
def Obligations.AddToIndex : Prop :=
  ∀ (x : RegNum) (s : State),
    (s.i.toNat + (s.v.get x).toNat ≤ 0xFFF → ∃ t, exec (.addI x) s = .next t ∧
      t.i.toNat = s.i.toNat + (s.v.get x).toNat ∧ t = { s with i := t.i, pc := s.pc + 2 }) ∧
    (0xFFF < s.i.toNat + (s.v.get x).toNat →
      exec (.addI x) s = .next (reportedBy .indexRange (s.i.toNat + (s.v.get x).toNat) s))

/-- `Fx29` points I at five times the whole byte and accesses nothing (rule R230, decision D15). -/
def Obligations.FontAddress : Prop :=
  ∀ (x : RegNum) (s : State), ∃ t, exec (.ldF x) s = .next t ∧ t.i.toNat = (s.v.get x).toNat * 5 ∧
    t = { s with i := t.i, pc := s.pc + 2 }

/-- `Fx33` stores the hundreds, tens and units of `V[x]` at I, I+1 and I+2 and no other byte; a base in the font or a range past
0xFFF halts and stores nothing (rule R232; decisions D11, D13, D18 and D21). -/
def Obligations.DecimalDigitsStored : Prop :=
  ∀ (x : RegNum) (s : State),
    (s.i.toNat ≤ 0x04F → exec (.ldB x) s = .next (haltedBy .fontWriteViolation s.i.toNat s)) ∧
    (0xFFF < s.i.toNat + 2 → exec (.ldB x) s = .next (haltedBy .memWriteOutOfBounds (s.i.toNat + 2) s)) ∧
    (0x050 ≤ s.i.toNat → s.i.toNat + 2 ≤ 0xFFF → ∃ t, exec (.ldB x) s = .next t ∧
      (t.mem.read s.i.toNat).toNat = (s.v.get x).toNat / 100 ∧
      (t.mem.read (s.i.toNat + 1)).toNat = (s.v.get x).toNat / 10 % 10 ∧
      (t.mem.read (s.i.toNat + 2)).toNat = (s.v.get x).toNat % 10 ∧
      (∀ a, a < s.i.toNat ∨ s.i.toNat + 2 < a → t.mem.read a = s.mem.read a) ∧
      t = { s with mem := t.mem, pc := s.pc + 2 })

/-- `Fx55` stores V0 to Vx at I to I+x and no other byte; a base in the font or a range past 0xFFF halts and stores nothing
(rule R236; decisions D11, D13, D18 and D21). -/
def Obligations.RegistersStored : Prop :=
  ∀ (x : RegNum) (s : State),
    (s.i.toNat ≤ 0x04F → exec (.storeRegs x) s = .next (haltedBy .fontWriteViolation s.i.toNat s)) ∧
    (0xFFF < s.i.toNat + x.val →
      exec (.storeRegs x) s = .next (haltedBy .memWriteOutOfBounds (s.i.toNat + x.val) s)) ∧
    (0x050 ≤ s.i.toNat → s.i.toNat + x.val ≤ 0xFFF → ∃ t, exec (.storeRegs x) s = .next t ∧
      (∀ r : RegNum, r ≤ x → t.mem.read (s.i.toNat + r.val) = s.v.get r) ∧
      (∀ a, a < s.i.toNat ∨ s.i.toNat + x.val < a → t.mem.read a = s.mem.read a) ∧
      t = { s with mem := t.mem, pc := s.pc + 2 })

/-- `Fx65` loads V0 to Vx from I to I+x and leaves the other registers, I and memory; a range past 0xFFF is reported and loads
no register (rule R240; decisions D11 and D21). -/
def Obligations.RegistersLoaded : Prop :=
  ∀ (x : RegNum) (s : State),
    (s.i.toNat + x.val ≤ 0xFFF → ∃ t, exec (.loadRegs x) s = .next t ∧
      (∀ r, t.v.get r = if r ≤ x then s.mem.read (s.i.toNat + r.val) else s.v.get r) ∧
      t = { s with v := t.v, pc := s.pc + 2 }) ∧
    (0xFFF < s.i.toNat + x.val →
      exec (.loadRegs x) s = .next (reportedBy .memReadOutOfBounds (s.i.toNat + x.val) s))

/-- A load with the base a store had brings back the registers the store put in memory, whatever they were changed to in between
(rules R236 and R240). The base is written as the store's own, so nothing is said of I after the store. -/
def Obligations.LoadBringsBackWhatStoreSaved : Prop :=
  ∀ (x : RegNum) (s t t' : State), exec (.storeRegs x) s = .next t → t.run ≠ .halted →
    t'.mem = t.mem → t'.i = s.i →
    ∃ u, exec (.loadRegs x) t' = .next u ∧ (∀ r, r ≤ x → u.v.get r = s.v.get r) ∧
      (∀ r, ¬ r ≤ x → u.v.get r = t'.v.get r)

/-- A store is seen by every later fetch while memory stays as it left it: the word fetched at an address a store has written is
the two registers stored there, the one at the lower address in the high byte (rules R62 and R80), and a slot at that address
runs the instruction they are, as any slot does (a slot being a step by log entry 1, its phase after a halt log entry 12). -/
def Obligations.StoreIsSeenByTheNextFetch : Prop :=
  ∀ (x r : RegNum) (s t u : State) (h : r.val + 1 < 16), exec (.storeRegs x) s = .next t →
    t.run ≠ .halted → r.val + 1 ≤ x.val → u.mem = t.mem → u.pc.toNat = s.i.toNat + r.val →
    (fetchWord u).toNat = (s.v.get r).toNat * 256 + (s.v.get ⟨r.val + 1, h⟩).toNat ∧
      ∀ (k : Nat) (i : Instr), u.run = .running → u.phase = .batch k →
        decodeWord (s.v.get r ++ s.v.get ⟨r.val + 1, h⟩) = .instr i →
        step u = andThen (exec i u) fun w =>
          .next (if w.run = .halted then w
            else { w with phase := if k + 1 < w.slotsPerFrame then .batch (k + 1) else .audio })

/-! ### Key wait, frame loop, timers -/

/-- A slot in WaitingForKey fetches nothing: on a new press it stores the key in the register of the wait and goes back to
Running, otherwise nothing changes; either way one slot is used and PC stays (rule R124, decision D16; a slot is a step by log
entry 1). -/
def Obligations.KeyWaitSlot : Prop :=
  ∀ (s : State) (t : RegNum) (k : Nat), s.run = .waitingForKey t → s.phase = .batch k →
    (s.newPress = true → ∃ u, step s = .next u ∧
      (∀ r, (u.v.get r).toNat = if r = t then s.lastKey.val else (s.v.get r).toNat) ∧
      u = { s with
        v := u.v, newPress := false, run := .running
        phase := if k + 1 < s.slotsPerFrame then .batch (k + 1) else .audio }) ∧
    (s.newPress = false →
      step s = .next { s with phase := if k + 1 < s.slotsPerFrame then .batch (k + 1) else .audio })

/-- A wait without a new press idles to the end of its batch: every slot is used, the last one too, nothing changes but the
place in the frame, and after the last slot the frame is at AUDIO (rules R124 and R253, decision D16; a slot is a step by log
entry 1). -/
def Obligations.WaitIdlesToTheEndOfTheBatch : Prop :=
  ∀ (s : State) (t : RegNum) (k : Nat), s.run = .waitingForKey t → s.newPress = false → s.phase = .batch k →
    k < s.slotsPerFrame →
    (∀ j, k + j < s.slotsPerFrame → steps j s = .next { s with phase := .batch (k + j) }) ∧
    steps (s.slotsPerFrame - k) s = .next { s with phase := .audio }

/-- The POLL phase applied to a list of events: KEY[k] is what the last event about key k says, a press is new when it found
its key up, LAST_KEY is the key of the last new press, and a quit anywhere in the list is kept pending; nothing else changes
(rule R252, decision D16). -/
def Obligations.PollAppliesTheEventsInOrder : Prop :=
  ∀ (evs : List HostEvent) (s : State),
    (∀ k, (poll evs s).key.get k =
      match (evs.filter fun e => e = .keyDown k || e = .keyUp k).getLast? with
      | none => s.key.get k
      | some e => e = .keyDown k) ∧
    ((poll evs s).newPress = true ↔ s.newPress = true ∨
      ∃ before k after, evs = before ++ .keyDown k :: after ∧ (poll before s).key.get k = false) ∧
    (∀ before k after, evs = before ++ .keyDown k :: after → (poll before s).key.get k = false →
      (∀ before' k' after', after = before' ++ .keyDown k' :: after' →
        (poll (before ++ .keyDown k :: before') s).key.get k' = true) →
      (poll evs s).lastKey = k) ∧
    ((∀ before k after, evs = before ++ .keyDown k :: after → (poll before s).key.get k = true) →
      (poll evs s).lastKey = s.lastKey) ∧
    ((poll evs s).quitPending = true ↔ s.quitPending = true ∨ .quit ∈ evs) ∧
    poll evs s = { s with
      key := (poll evs s).key, lastKey := (poll evs s).lastKey, newPress := (poll evs s).newPress
      quitPending := (poll evs s).quitPending }

/-- What a step does in each phase of a frame that is not a slot, and which phase comes next (rules R250, R252 and R256 to R260;
decisions D17, D24 and D28; that a phase is a step, and SLEEP one of them, is log entries 1 and 14). A POLL takes the first
list that waits, and where none waits a list under no law, the same list `frameEvents` names (log entry 6). -/
def Obligations.PhasesInOrder : Prop :=
  ∀ s : State, s.FramesRun →
    (s.phase = .poll → step s =
      .next { poll (frameEvents s) s with phase := .batch 0, events := s.events.tail, polls := s.polls + 1 }) ∧
    (∀ evs rest, s.phase = .poll → s.events = evs :: rest →
      step s = .next { poll evs s with phase := .batch 0, events := rest, polls := s.polls + 1 }) ∧
    (s.phase = .audio → 0 < s.st.toNat →
      step s = .next { s with audioOn := true, out := s.out ++ [.audioResume], phase := .tick }) ∧
    (s.phase = .audio → s.st.toNat = 0 →
      step s = .next { s with audioOn := false, out := s.out ++ [.audioPause], phase := .tick }) ∧
    (s.phase = .tick → ∃ t, step s = .next t ∧ t.dt.toNat = s.dt.toNat - 1 ∧ t.st.toNat = s.st.toNat - 1 ∧
      t = { s with dt := t.dt, st := t.st, phase := .present }) ∧
    (s.phase = .present → step s = .next { s with out := s.out ++ [.present], phase := .sleep }) ∧
    (s.phase = .sleep → step s = .next { s with phase := .endFrame }) ∧
    (s.phase = .endFrame → s.quitPending = true → step s = .next { s with run := .stopped, phase := .poll }) ∧
    (s.phase = .endFrame → s.quitPending = false → step s = .next { s with phase := .poll })

/-- Rule R300: the TICK phase decrements each timer by 1 if nonzero, clamped at 0, each on its own; PRESENT comes
next (rule R250, a phase being a step by log entry 1). -/
def Obligations.TickCountsDownClamped : Prop :=
  ∀ s : State, s.FramesRun → s.phase = .tick → ∃ t, step s = .next t ∧
    t.dt.toNat = s.dt.toNat - 1 ∧ t.st.toNat = s.st.toNat - 1 ∧ t = { s with dt := t.dt, st := t.st, phase := .present }

/-- A timer holding n reaches 0 after exactly n ticks and stays there; it never wraps (rule R301). -/
def Obligations.TimersReachZeroAndStay : Prop :=
  ∀ (n : Nat) (s : State),
    (timerTick^[n] s).dt.toNat = s.dt.toNat - n ∧ (timerTick^[n] s).st.toNat = s.st.toNat - n

/-- In Halted, Stopped and LoadFailed no phase and no cycle is performed: a step stops by that mode's name; in every other
mode a step answers a next state (rules R125 and R251, decisions D18 and D24; that a step of a stopped machine answers a fault
is log entry 10). -/
def Obligations.StepStopsExactlyInTheTerminalModes : Prop :=
  ∀ s : State, (s.run = .halted → step s = .fault .halted) ∧ (s.run = .stopped → step s = .fault .stopped) ∧
    (s.run = .loadFailed → step s = .fault .loadFailed) ∧ (s.FramesRun → ∃ t, step s = .next t)

/-- A slot that raises changes nothing but RUN, FAULT and the trace, and no phase of the frame follows it (rules R254 and R283,
decision D18). That the phase too is unchanged is the model's choice (log entry 12), and so is the fault with which a step of
the halted machine answers (log entry 10). -/
def Obligations.FatalErrorEndsEverything : Prop :=
  ∀ s t : State, s.FramesRun → step s = .next t → t.run = .halted →
    (∃ e info, e.fatal = true ∧ t = haltedBy e info s) ∧ step t = .fault .halted

/-- A frame as steps is the frame as one function (rule R261): when no slot halts, the steps of POLL, N slots, AUDIO, TICK,
PRESENT, SLEEP and END end where `frame` ends, at the POLL of the next frame. The count N + 6 is the model's cut into steps
(log entry 1), the list the POLL takes and the queue it leaves are log entry 6. -/
def Obligations.StepsOfAFrameAreTheFrameFunction : Prop :=
  ∀ s t : State, s.FramesRun → s.phase = .poll → 0 < s.slotsPerFrame →
    frame (frameEvents s) s = .next t → t.run ≠ .halted →
    steps (s.slotsPerFrame + 6) s =
      .next { t with phase := .poll, events := s.events.tail, polls := s.polls + 1 }

/-- A frame in which a slot halts ends there: after at most N + 1 steps the machine stands in the state `frame` gives but for
the frame's bookkeeping, without an audio command, a tick or a `Present` (rules R254 and R261, decision D18). The count of
steps, the queue and the phase that keeps the slot that raised are the model's choice (log entries 1, 6 and 12). -/
def Obligations.HaltingFrameIsAbandoned : Prop :=
  ∀ s t : State, s.FramesRun → s.phase = .poll → 0 < s.slotsPerFrame →
    frame (frameEvents s) s = .next t → t.run = .halted →
    ∃ k < s.slotsPerFrame, steps (k + 2) s =
      .next { t with phase := .batch k, events := s.events.tail, polls := s.polls + 1 }

/-- AUDIO_ON is an output only: a step of a machine that differs in it differs in nothing else (rule R41). -/
def Obligations.AudioOutputIsNeverRead : Prop :=
  ∀ (s : State) (b : Bool),
    step { s with audioOn := b } =
      mapNext (fun t => if s.phase = .audio then t else { t with audioOn := b }) (step s)

/-- ST is read by no instruction: an instruction run with another value in it does the same to everything else (rule R32). -/
def Obligations.SoundTimerIsReadByNoInstruction : Prop :=
  ∀ (i : Instr) (s : State) (b : Byte),
    exec i { s with st := b } =
      mapNext (fun t => if ∃ x, i = .ldStVx x then t else { t with st := b }) (exec i s)

/-! ### Reset, invariants -/

/-- Rule R75: an image that fits is copied verbatim to 0x200 and on, and nothing else of memory is touched by it. -/
def Obligations.ResetCopiesTheImage : Prop :=
  ∀ (n : Nat) (font : Vector Byte 80) (fb : Framebuffer) (rom : List Byte), rom.length ≤ 3584 →
    (∀ (k : Nat) (h : k < rom.length), (resetWith n font fb rom).mem.read (0x200 + k) = rom[k]) ∧
    (∀ a, a < 0x200 ∨ 0x200 + rom.length ≤ a →
      (resetWith n font fb rom).mem.read a = (resetWith n font fb []).mem.read a)

/-- The state after a reset with an image that fits (rules R43 and R320; every value but PC, the font region, the image and the
empty stack is the spec's own choice, decisions D2, D3 and D5; log entries 3 to 5); CYCLES_PER_FRAME is the parameter the reset
was given, which the model holds in a field (rule R6, decision D6, log entry 2). -/
def Obligations.ResetState : Prop :=
  ∀ (n : Nat) (font : Vector Byte 80) (fb : Framebuffer) (rom : List Byte) (s : State), rom.length ≤ 3584 →
    s = resetWith n font fb rom →
    s.pc = 0x200 ∧ (∀ r, s.v.get r = 0) ∧ s.i = 0 ∧ s.sp = 0 ∧ (∀ j, s.stack.get j = 0) ∧ s.dt = 0 ∧ s.st = 0 ∧
    (∀ g : Fin 80, s.mem.read g.val = font.get g) ∧ (∀ a, 0x050 ≤ a → a < 0x200 → s.mem.read a = 0) ∧
    (∀ a, 0x200 + rom.length ≤ a → a ≤ 0xFFF → s.mem.read a = 0) ∧
    s.fb = fb ∧ (∀ k, s.key.get k = false) ∧ s.lastKey = 0 ∧ s.newPress = false ∧ s.quitPending = false ∧
    s.run = .running ∧ s.fault = none ∧ s.audioOn = false ∧ s.out = [] ∧ s.slotsPerFrame = n

/-- An image of more than 3584 bytes: RUN LoadFailed, FAULT (1, 0, L), one `Diag` and no byte of it in memory (rules R74, R285 and
R322; the limit is decision D25, the code D19, the zeros from 0x050 on D3, log entry 5). That a step answers a fault is the
model's choice where the spec has no step (rule R125, log entry 10). -/
def Obligations.TooLargeImageFailsToLoad : Prop :=
  ∀ (n : Nat) (font : Vector Byte 80) (fb : Framebuffer) (rom : List Byte) (s : State), 3584 < rom.length →
    s = resetWith n font fb rom →
    s.run = .loadFailed ∧ s.fault = some ⟨.loadError, 0, rom.length⟩ ∧ ErrorKind.loadError.code = 1 ∧
    s.out = [.diag ⟨.loadError, 0, rom.length⟩] ∧ s.pc = 0x200 ∧
    (∀ g : Fin 80, s.mem.read g.val = font.get g) ∧ (∀ a, 0x050 ≤ a → a ≤ 0xFFF → s.mem.read a = 0) ∧
    step s = .fault .loadFailed

/-- The invariants hold after every reset, whatever the image and the parameters in range, and at `State.reset`. Those on the form
of memory, the slot count and the slot are the model's own (log entries 1, 2 and 19). -/
def Obligations.ResetEstablishesTheInvariants : Prop :=
  State.reset.Inv ∧
    ∀ (n : Nat) (font : Vector Byte 80) (fb : Framebuffer) (rom : List Byte), 8 ≤ n → n ≤ 16 →
      (resetWith n font fb rom).Inv

/-- The invariants of rule R44: every step from a state that has them gives a state that has them. Those on the form of memory,
the slot count and the slot are the model's own (log entries 1, 2 and 19). -/
def Obligations.EveryStepKeepsTheInvariants : Prop :=
  ∀ s t : State, s.Inv → step s = .next t → t.Inv

/-- The font is immutable: no step changes a byte below 0x050 (rule R71, decision D13). -/
def Obligations.NoStepChangesTheFont : Prop :=
  ∀ s t : State, step s = .next t → ∀ a, a < 0x050 → t.mem.read a = s.mem.read a
end

