-- ==== Sys2Proof/Laws/State.lean ====
section
/-! SUPPORT. One lemma per field per update: what each named update of State does to each field. They keep the record updates
folded in every later proof. -/

namespace Sys2Proof.Machine

/-! ### advancePc -/

@[simp] theorem advancePc_v (n : Word) (s : State) : (advancePc n s).v = s.v := rfl
@[simp] theorem advancePc_pc (n : Word) (s : State) : (advancePc n s).pc = s.pc + n := rfl
@[simp] theorem advancePc_i (n : Word) (s : State) : (advancePc n s).i = s.i := rfl
@[simp] theorem advancePc_sp (n : Word) (s : State) : (advancePc n s).sp = s.sp := rfl
@[simp] theorem advancePc_stack (n : Word) (s : State) : (advancePc n s).stack = s.stack := rfl
@[simp] theorem advancePc_dt (n : Word) (s : State) : (advancePc n s).dt = s.dt := rfl
@[simp] theorem advancePc_st (n : Word) (s : State) : (advancePc n s).st = s.st := rfl
@[simp] theorem advancePc_mem (n : Word) (s : State) : (advancePc n s).mem = s.mem := rfl
@[simp] theorem advancePc_fb (n : Word) (s : State) : (advancePc n s).fb = s.fb := rfl
@[simp] theorem advancePc_key (n : Word) (s : State) : (advancePc n s).key = s.key := rfl
@[simp] theorem advancePc_lastKey (n : Word) (s : State) : (advancePc n s).lastKey = s.lastKey := rfl
@[simp] theorem advancePc_newPress (n : Word) (s : State) : (advancePc n s).newPress = s.newPress := rfl
@[simp] theorem advancePc_quitPending (n : Word) (s : State) : (advancePc n s).quitPending = s.quitPending := rfl
@[simp] theorem advancePc_run (n : Word) (s : State) : (advancePc n s).run = s.run := rfl
@[simp] theorem advancePc_fault (n : Word) (s : State) : (advancePc n s).fault = s.fault := rfl
@[simp] theorem advancePc_audioOn (n : Word) (s : State) : (advancePc n s).audioOn = s.audioOn := rfl
@[simp] theorem advancePc_phase (n : Word) (s : State) : (advancePc n s).phase = s.phase := rfl
@[simp] theorem advancePc_slotsPerFrame (n : Word) (s : State) : (advancePc n s).slotsPerFrame = s.slotsPerFrame := rfl
@[simp] theorem advancePc_events (n : Word) (s : State) : (advancePc n s).events = s.events := rfl
@[simp] theorem advancePc_polls (n : Word) (s : State) : (advancePc n s).polls = s.polls := rfl
@[simp] theorem advancePc_rnd (n : Word) (s : State) : (advancePc n s).rnd = s.rnd := rfl
@[simp] theorem advancePc_draws (n : Word) (s : State) : (advancePc n s).draws = s.draws := rfl
@[simp] theorem advancePc_out (n : Word) (s : State) : (advancePc n s).out = s.out := rfl

/-! ### emit -/

@[simp] theorem emit_v (evs : List Output) (s : State) : (emit evs s).v = s.v := rfl
@[simp] theorem emit_pc (evs : List Output) (s : State) : (emit evs s).pc = s.pc := rfl
@[simp] theorem emit_i (evs : List Output) (s : State) : (emit evs s).i = s.i := rfl
@[simp] theorem emit_sp (evs : List Output) (s : State) : (emit evs s).sp = s.sp := rfl
@[simp] theorem emit_stack (evs : List Output) (s : State) : (emit evs s).stack = s.stack := rfl
@[simp] theorem emit_dt (evs : List Output) (s : State) : (emit evs s).dt = s.dt := rfl
@[simp] theorem emit_st (evs : List Output) (s : State) : (emit evs s).st = s.st := rfl
@[simp] theorem emit_mem (evs : List Output) (s : State) : (emit evs s).mem = s.mem := rfl
@[simp] theorem emit_fb (evs : List Output) (s : State) : (emit evs s).fb = s.fb := rfl
@[simp] theorem emit_key (evs : List Output) (s : State) : (emit evs s).key = s.key := rfl
@[simp] theorem emit_lastKey (evs : List Output) (s : State) : (emit evs s).lastKey = s.lastKey := rfl
@[simp] theorem emit_newPress (evs : List Output) (s : State) : (emit evs s).newPress = s.newPress := rfl
@[simp] theorem emit_quitPending (evs : List Output) (s : State) : (emit evs s).quitPending = s.quitPending := rfl
@[simp] theorem emit_run (evs : List Output) (s : State) : (emit evs s).run = s.run := rfl
@[simp] theorem emit_fault (evs : List Output) (s : State) : (emit evs s).fault = s.fault := rfl
@[simp] theorem emit_audioOn (evs : List Output) (s : State) : (emit evs s).audioOn = s.audioOn := rfl
@[simp] theorem emit_phase (evs : List Output) (s : State) : (emit evs s).phase = s.phase := rfl
@[simp] theorem emit_slotsPerFrame (evs : List Output) (s : State) : (emit evs s).slotsPerFrame = s.slotsPerFrame := rfl
@[simp] theorem emit_events (evs : List Output) (s : State) : (emit evs s).events = s.events := rfl
@[simp] theorem emit_polls (evs : List Output) (s : State) : (emit evs s).polls = s.polls := rfl
@[simp] theorem emit_rnd (evs : List Output) (s : State) : (emit evs s).rnd = s.rnd := rfl
@[simp] theorem emit_draws (evs : List Output) (s : State) : (emit evs s).draws = s.draws := rfl
@[simp] theorem emit_out (evs : List Output) (s : State) : (emit evs s).out = s.out ++ evs := rfl

/-! ### writeV -/

@[simp] theorem writeV_v (r : RegNum) (b : Byte) (s : State) : (writeV r b s).v = s.v.set r.val b := rfl
@[simp] theorem writeV_pc (r : RegNum) (b : Byte) (s : State) : (writeV r b s).pc = s.pc := rfl
@[simp] theorem writeV_i (r : RegNum) (b : Byte) (s : State) : (writeV r b s).i = s.i := rfl
@[simp] theorem writeV_sp (r : RegNum) (b : Byte) (s : State) : (writeV r b s).sp = s.sp := rfl
@[simp] theorem writeV_stack (r : RegNum) (b : Byte) (s : State) : (writeV r b s).stack = s.stack := rfl
@[simp] theorem writeV_dt (r : RegNum) (b : Byte) (s : State) : (writeV r b s).dt = s.dt := rfl
@[simp] theorem writeV_st (r : RegNum) (b : Byte) (s : State) : (writeV r b s).st = s.st := rfl
@[simp] theorem writeV_mem (r : RegNum) (b : Byte) (s : State) : (writeV r b s).mem = s.mem := rfl
@[simp] theorem writeV_fb (r : RegNum) (b : Byte) (s : State) : (writeV r b s).fb = s.fb := rfl
@[simp] theorem writeV_key (r : RegNum) (b : Byte) (s : State) : (writeV r b s).key = s.key := rfl
@[simp] theorem writeV_lastKey (r : RegNum) (b : Byte) (s : State) : (writeV r b s).lastKey = s.lastKey := rfl
@[simp] theorem writeV_newPress (r : RegNum) (b : Byte) (s : State) : (writeV r b s).newPress = s.newPress := rfl
@[simp] theorem writeV_quitPending (r : RegNum) (b : Byte) (s : State) : (writeV r b s).quitPending = s.quitPending := rfl
@[simp] theorem writeV_run (r : RegNum) (b : Byte) (s : State) : (writeV r b s).run = s.run := rfl
@[simp] theorem writeV_fault (r : RegNum) (b : Byte) (s : State) : (writeV r b s).fault = s.fault := rfl
@[simp] theorem writeV_audioOn (r : RegNum) (b : Byte) (s : State) : (writeV r b s).audioOn = s.audioOn := rfl
@[simp] theorem writeV_phase (r : RegNum) (b : Byte) (s : State) : (writeV r b s).phase = s.phase := rfl
@[simp] theorem writeV_slotsPerFrame (r : RegNum) (b : Byte) (s : State) : (writeV r b s).slotsPerFrame = s.slotsPerFrame := rfl
@[simp] theorem writeV_events (r : RegNum) (b : Byte) (s : State) : (writeV r b s).events = s.events := rfl
@[simp] theorem writeV_polls (r : RegNum) (b : Byte) (s : State) : (writeV r b s).polls = s.polls := rfl
@[simp] theorem writeV_rnd (r : RegNum) (b : Byte) (s : State) : (writeV r b s).rnd = s.rnd := rfl
@[simp] theorem writeV_draws (r : RegNum) (b : Byte) (s : State) : (writeV r b s).draws = s.draws := rfl
@[simp] theorem writeV_out (r : RegNum) (b : Byte) (s : State) : (writeV r b s).out = s.out := rfl

/-! ### writeWithFlag -/

@[simp] theorem writeWithFlag_v (x : RegNum) (r : Byte) (f : Bool) (s : State) : (writeWithFlag x r f s).v = (s.v.set x.val r).set 15 (flagByte f) := rfl
@[simp] theorem writeWithFlag_pc (x : RegNum) (r : Byte) (f : Bool) (s : State) : (writeWithFlag x r f s).pc = s.pc := rfl
@[simp] theorem writeWithFlag_i (x : RegNum) (r : Byte) (f : Bool) (s : State) : (writeWithFlag x r f s).i = s.i := rfl
@[simp] theorem writeWithFlag_sp (x : RegNum) (r : Byte) (f : Bool) (s : State) : (writeWithFlag x r f s).sp = s.sp := rfl
@[simp] theorem writeWithFlag_stack (x : RegNum) (r : Byte) (f : Bool) (s : State) : (writeWithFlag x r f s).stack = s.stack := rfl
@[simp] theorem writeWithFlag_dt (x : RegNum) (r : Byte) (f : Bool) (s : State) : (writeWithFlag x r f s).dt = s.dt := rfl
@[simp] theorem writeWithFlag_st (x : RegNum) (r : Byte) (f : Bool) (s : State) : (writeWithFlag x r f s).st = s.st := rfl
@[simp] theorem writeWithFlag_mem (x : RegNum) (r : Byte) (f : Bool) (s : State) : (writeWithFlag x r f s).mem = s.mem := rfl
@[simp] theorem writeWithFlag_fb (x : RegNum) (r : Byte) (f : Bool) (s : State) : (writeWithFlag x r f s).fb = s.fb := rfl
@[simp] theorem writeWithFlag_key (x : RegNum) (r : Byte) (f : Bool) (s : State) : (writeWithFlag x r f s).key = s.key := rfl
@[simp] theorem writeWithFlag_lastKey (x : RegNum) (r : Byte) (f : Bool) (s : State) : (writeWithFlag x r f s).lastKey = s.lastKey := rfl
@[simp] theorem writeWithFlag_newPress (x : RegNum) (r : Byte) (f : Bool) (s : State) : (writeWithFlag x r f s).newPress = s.newPress := rfl
@[simp] theorem writeWithFlag_quitPending (x : RegNum) (r : Byte) (f : Bool) (s : State) : (writeWithFlag x r f s).quitPending = s.quitPending := rfl
@[simp] theorem writeWithFlag_run (x : RegNum) (r : Byte) (f : Bool) (s : State) : (writeWithFlag x r f s).run = s.run := rfl
@[simp] theorem writeWithFlag_fault (x : RegNum) (r : Byte) (f : Bool) (s : State) : (writeWithFlag x r f s).fault = s.fault := rfl
@[simp] theorem writeWithFlag_audioOn (x : RegNum) (r : Byte) (f : Bool) (s : State) : (writeWithFlag x r f s).audioOn = s.audioOn := rfl
@[simp] theorem writeWithFlag_phase (x : RegNum) (r : Byte) (f : Bool) (s : State) : (writeWithFlag x r f s).phase = s.phase := rfl
@[simp] theorem writeWithFlag_slotsPerFrame (x : RegNum) (r : Byte) (f : Bool) (s : State) : (writeWithFlag x r f s).slotsPerFrame = s.slotsPerFrame := rfl
@[simp] theorem writeWithFlag_events (x : RegNum) (r : Byte) (f : Bool) (s : State) : (writeWithFlag x r f s).events = s.events := rfl
@[simp] theorem writeWithFlag_polls (x : RegNum) (r : Byte) (f : Bool) (s : State) : (writeWithFlag x r f s).polls = s.polls := rfl
@[simp] theorem writeWithFlag_rnd (x : RegNum) (r : Byte) (f : Bool) (s : State) : (writeWithFlag x r f s).rnd = s.rnd := rfl
@[simp] theorem writeWithFlag_draws (x : RegNum) (r : Byte) (f : Bool) (s : State) : (writeWithFlag x r f s).draws = s.draws := rfl
@[simp] theorem writeWithFlag_out (x : RegNum) (r : Byte) (f : Bool) (s : State) : (writeWithFlag x r f s).out = s.out := rfl

/-! ### consumeDraw -/

@[simp] theorem consumeDraw_v (s : State) : (consumeDraw s).v = s.v := rfl
@[simp] theorem consumeDraw_pc (s : State) : (consumeDraw s).pc = s.pc := rfl
@[simp] theorem consumeDraw_i (s : State) : (consumeDraw s).i = s.i := rfl
@[simp] theorem consumeDraw_sp (s : State) : (consumeDraw s).sp = s.sp := rfl
@[simp] theorem consumeDraw_stack (s : State) : (consumeDraw s).stack = s.stack := rfl
@[simp] theorem consumeDraw_dt (s : State) : (consumeDraw s).dt = s.dt := rfl
@[simp] theorem consumeDraw_st (s : State) : (consumeDraw s).st = s.st := rfl
@[simp] theorem consumeDraw_mem (s : State) : (consumeDraw s).mem = s.mem := rfl
@[simp] theorem consumeDraw_fb (s : State) : (consumeDraw s).fb = s.fb := rfl
@[simp] theorem consumeDraw_key (s : State) : (consumeDraw s).key = s.key := rfl
@[simp] theorem consumeDraw_lastKey (s : State) : (consumeDraw s).lastKey = s.lastKey := rfl
@[simp] theorem consumeDraw_newPress (s : State) : (consumeDraw s).newPress = s.newPress := rfl
@[simp] theorem consumeDraw_quitPending (s : State) : (consumeDraw s).quitPending = s.quitPending := rfl
@[simp] theorem consumeDraw_run (s : State) : (consumeDraw s).run = s.run := rfl
@[simp] theorem consumeDraw_fault (s : State) : (consumeDraw s).fault = s.fault := rfl
@[simp] theorem consumeDraw_audioOn (s : State) : (consumeDraw s).audioOn = s.audioOn := rfl
@[simp] theorem consumeDraw_phase (s : State) : (consumeDraw s).phase = s.phase := rfl
@[simp] theorem consumeDraw_slotsPerFrame (s : State) : (consumeDraw s).slotsPerFrame = s.slotsPerFrame := rfl
@[simp] theorem consumeDraw_events (s : State) : (consumeDraw s).events = s.events := rfl
@[simp] theorem consumeDraw_polls (s : State) : (consumeDraw s).polls = s.polls := rfl
@[simp] theorem consumeDraw_rnd (s : State) : (consumeDraw s).rnd = s.rnd.tail := rfl
@[simp] theorem consumeDraw_draws (s : State) : (consumeDraw s).draws = s.draws + 1 := rfl
@[simp] theorem consumeDraw_out (s : State) : (consumeDraw s).out = s.out := rfl

/-! ### timerTick -/

@[simp] theorem timerTick_v (s : State) : (timerTick s).v = s.v := rfl
@[simp] theorem timerTick_pc (s : State) : (timerTick s).pc = s.pc := rfl
@[simp] theorem timerTick_i (s : State) : (timerTick s).i = s.i := rfl
@[simp] theorem timerTick_sp (s : State) : (timerTick s).sp = s.sp := rfl
@[simp] theorem timerTick_stack (s : State) : (timerTick s).stack = s.stack := rfl
@[simp] theorem timerTick_dt (s : State) : (timerTick s).dt = countDown s.dt := rfl
@[simp] theorem timerTick_st (s : State) : (timerTick s).st = countDown s.st := rfl
@[simp] theorem timerTick_mem (s : State) : (timerTick s).mem = s.mem := rfl
@[simp] theorem timerTick_fb (s : State) : (timerTick s).fb = s.fb := rfl
@[simp] theorem timerTick_key (s : State) : (timerTick s).key = s.key := rfl
@[simp] theorem timerTick_lastKey (s : State) : (timerTick s).lastKey = s.lastKey := rfl
@[simp] theorem timerTick_newPress (s : State) : (timerTick s).newPress = s.newPress := rfl
@[simp] theorem timerTick_quitPending (s : State) : (timerTick s).quitPending = s.quitPending := rfl
@[simp] theorem timerTick_run (s : State) : (timerTick s).run = s.run := rfl
@[simp] theorem timerTick_fault (s : State) : (timerTick s).fault = s.fault := rfl
@[simp] theorem timerTick_audioOn (s : State) : (timerTick s).audioOn = s.audioOn := rfl
@[simp] theorem timerTick_phase (s : State) : (timerTick s).phase = s.phase := rfl
@[simp] theorem timerTick_slotsPerFrame (s : State) : (timerTick s).slotsPerFrame = s.slotsPerFrame := rfl
@[simp] theorem timerTick_events (s : State) : (timerTick s).events = s.events := rfl
@[simp] theorem timerTick_polls (s : State) : (timerTick s).polls = s.polls := rfl
@[simp] theorem timerTick_rnd (s : State) : (timerTick s).rnd = s.rnd := rfl
@[simp] theorem timerTick_draws (s : State) : (timerTick s).draws = s.draws := rfl
@[simp] theorem timerTick_out (s : State) : (timerTick s).out = s.out := rfl

/-! ### presentFrame -/

@[simp] theorem presentFrame_v (s : State) : (presentFrame s).v = s.v := rfl
@[simp] theorem presentFrame_pc (s : State) : (presentFrame s).pc = s.pc := rfl
@[simp] theorem presentFrame_i (s : State) : (presentFrame s).i = s.i := rfl
@[simp] theorem presentFrame_sp (s : State) : (presentFrame s).sp = s.sp := rfl
@[simp] theorem presentFrame_stack (s : State) : (presentFrame s).stack = s.stack := rfl
@[simp] theorem presentFrame_dt (s : State) : (presentFrame s).dt = s.dt := rfl
@[simp] theorem presentFrame_st (s : State) : (presentFrame s).st = s.st := rfl
@[simp] theorem presentFrame_mem (s : State) : (presentFrame s).mem = s.mem := rfl
@[simp] theorem presentFrame_fb (s : State) : (presentFrame s).fb = s.fb := rfl
@[simp] theorem presentFrame_key (s : State) : (presentFrame s).key = s.key := rfl
@[simp] theorem presentFrame_lastKey (s : State) : (presentFrame s).lastKey = s.lastKey := rfl
@[simp] theorem presentFrame_newPress (s : State) : (presentFrame s).newPress = s.newPress := rfl
@[simp] theorem presentFrame_quitPending (s : State) : (presentFrame s).quitPending = s.quitPending := rfl
@[simp] theorem presentFrame_run (s : State) : (presentFrame s).run = s.run := rfl
@[simp] theorem presentFrame_fault (s : State) : (presentFrame s).fault = s.fault := rfl
@[simp] theorem presentFrame_audioOn (s : State) : (presentFrame s).audioOn = s.audioOn := rfl
@[simp] theorem presentFrame_phase (s : State) : (presentFrame s).phase = s.phase := rfl
@[simp] theorem presentFrame_slotsPerFrame (s : State) : (presentFrame s).slotsPerFrame = s.slotsPerFrame := rfl
@[simp] theorem presentFrame_events (s : State) : (presentFrame s).events = s.events := rfl
@[simp] theorem presentFrame_polls (s : State) : (presentFrame s).polls = s.polls := rfl
@[simp] theorem presentFrame_rnd (s : State) : (presentFrame s).rnd = s.rnd := rfl
@[simp] theorem presentFrame_draws (s : State) : (presentFrame s).draws = s.draws := rfl
@[simp] theorem presentFrame_out (s : State) : (presentFrame s).out = s.out ++ [.present] := rfl

end Sys2Proof.Machine
end

