-- ==== Sys2Proof/Laws/Ops.lean ====
section
/-! SUPPORT. One lemma per shared operation: everything it can do, for later proofs to cite instead of unfolding it. -/

namespace Sys2Proof.Machine

/-! ### Registers -/

@[simp] theorem get_set {α : Type} {n : Nat} (v : Vector α n) (r q : Fin n) (b : α) :
    (v.set r.val b).get q = if q = r then b else v.get q := by
  simp [Vector.get_eq_getElem, Vector.getElem_set, Fin.ext_iff, eq_comm]

theorem flagByte_toNat (b : Bool) : (flagByte b).toNat = if b then 1 else 0 := by cases b <;> rfl

/-- Rule R186: carry is 1 when the 9-bit sum is over 255, else 0. -/
theorem carry_toNat (a b : Byte) : (flagByte (carry a b)).toNat = if 255 < a.toNat + b.toNat then 1 else 0 := by
  rw [flagByte_toNat, carry]
  by_cases h : 255 < a.toNat + b.toNat <;> rw [if_congr decide_eq_true_iff rfl rfl]

/-- Rule R186: the subtraction flag is 1 when the minuend is at least the subtrahend, else 0. -/
theorem noBorrow_toNat (a b : Byte) : (flagByte (noBorrow a b)).toNat = if b.toNat ≤ a.toNat then 1 else 0 := by
  rw [flagByte_toNat, noBorrow]
  by_cases h : b.toNat ≤ a.toNat <;> rw [if_congr decide_eq_true_iff rfl rfl]

/-- Rule R180: the bit a right shift moves out. -/
theorem lowBit_toNat (a : Byte) : (flagByte (lowBit a)).toNat = a.toNat % 2 := by
  rw [flagByte_toNat, lowBit, BitVec.getLsbD, Nat.testBit_zero, if_congr decide_eq_true_iff rfl rfl]
  split <;> omega

/-- Rule R184: the bit a left shift moves out. -/
theorem highBit_toNat (a : Byte) : (flagByte (highBit a)).toNat = a.toNat / 128 := by
  have := a.isLt
  rw [flagByte_toNat, highBit, BitVec.getLsbD, Nat.testBit_eq_decide_div_mod_eq, if_congr decide_eq_true_iff rfl rfl]
  split <;> omega

@[simp] theorem flagByte_eq_one (b : Bool) : flagByte b = 1 ↔ b = true := by cases b <;> decide

@[simp] theorem flagByte_eq_zero (b : Bool) : flagByte b = 0 ↔ b = false := by cases b <;> decide

/-- Rule R187: with x = 15 the flag stands. -/
theorem writeWithFlag_get (x q : RegNum) (r : Byte) (f : Bool) (s : State) :
    (writeWithFlag x r f s).v.get q = if q = 15 then flagByte f else if q = x then r else s.v.get q := by
  have h := get_set (s.v.set x.val r) (15 : RegNum) q (flagByte f)
  rw [get_set s.v x] at h
  exact h

@[simp] theorem loadedRegs_get (s : State) (x r : RegNum) :
    (loadedRegs s x).get r = if r ≤ x then s.mem.read (s.i.toNat + r.val) else s.v.get r := by
  rw [loadedRegs, Vector.get_eq_getElem, Vector.getElem_ofFn]
  rfl

@[simp] theorem regsUpTo_length (s : State) (x : RegNum) : (regsUpTo s x).length = x.val + 1 := by
  simp [regsUpTo]

theorem regsUpTo_getD (s : State) (x r : RegNum) (h : r ≤ x) (d : Byte) :
    (regsUpTo s x).getD r.val d = s.v.get r := by
  have := r.isLt
  have : r.val < x.val + 1 := Nat.lt_succ_of_le h
  simp [regsUpTo, List.getD_eq_getElem?_getD, this, Vector.get_eq_getElem]

@[simp] theorem bcdDigits_length (b : Byte) : (bcdDigits b).length = 3 := rfl

/-- Rule R62: the byte at the lower address is the high one. -/
theorem Memory.readWord_toNat (m : Memory) (a : Nat) :
    (m.readWord a).toNat = (m.read a).toNat * 256 + (m.read (a + 1)).toNat := by
  have h := BitVec.toNat_append (m.read a) (m.read (a + 1))
  rw [← Nat.shiftLeft_add_eq_or_of_lt (m.read (a + 1)).isLt, Nat.shiftLeft_eq] at h
  exact h

/-! ### The checks of rules R70, R71 and R145 as arithmetic -/

theorem outOfBounds_eq_true (hi : Nat) : outOfBounds hi = true ↔ 0xFFF < hi := decide_eq_true_iff

theorem outOfBounds_eq_false (hi : Nat) : outOfBounds hi = false ↔ hi ≤ 0xFFF :=
  decide_eq_false_iff_not.trans Nat.not_lt

theorem inFont_eq_true (lo : Nat) : inFont lo = true ↔ lo ≤ 0x04F :=
  decide_eq_true_iff.trans Nat.lt_succ_iff

theorem inFont_eq_false (lo : Nat) : inFont lo = false ↔ 0x050 ≤ lo := decide_eq_false_iff_not.trans Nat.not_lt

@[simp] theorem addrWord_toNat (nnn : Addr12) : (addrWord nnn).toNat = nnn.toNat := by
  simp [addrWord]; have := nnn.isLt; omega

/-- The largest sum is 0x10FE, so the 16-bit PC holds it exactly (rule R192). -/
@[simp] theorem offsetTarget_toNat (s : State) (nnn : Addr12) :
    (offsetTarget s nnn).toNat = (s.v.get 0).toNat + nnn.toNat := by
  have := nnn.isLt
  have := (s.v.get 0).isLt
  simp [offsetTarget, readV]; omega

theorem oddTarget_eq (t : Word) : oddTarget t = decide (t.toNat % 2 = 1) := by
  simp [oddTarget, BitVec.getLsbD, Nat.testBit_zero]

/-! ### Outcomes -/

@[simp] theorem complete_eq (s : State) : complete s = .next (advancePc 2 s) := rfl

theorem report_eq (e : ErrorKind) (info : Nat) (s : State) : report e info s = .next (reportedBy e info s) := rfl

theorem raise_eq (e : ErrorKind) (info : Nat) (s : State) : raise e info s = .next (haltedBy e info s) := rfl

@[simp] theorem andThen_next (s : State) (f : State → Result) : andThen (.next s) f = f s := rfl

theorem skipIf_eq (c : Bool) (s : State) :
    skipIf c s = .next { s with pc := if c then s.pc + 4 else s.pc + 2 } := by cases c <;> rfl

/-- Rule R145 as the two cases of a control transfer. -/
theorem jumpTo_eq (t : Word) (s : State) :
    jumpTo t s = .next (if t.toNat % 2 = 1 then haltedBy .misalignedTarget t.toNat s else { s with pc := t }) := by
  rw [jumpTo, oddTarget_eq, raise_eq]
  by_cases h : t.toNat % 2 = 1 <;> simp [h]

/-- Rules R211 to R213 as the two cases of a key skip. -/
theorem keySkip_eq (x : RegNum) (w : Bool) (s : State) :
    keySkip x w s = .next (if h : (s.v.get x).toNat < 16 then
      { s with pc := if s.key[(s.v.get x).toNat] = w then s.pc + 4 else s.pc + 2 }
      else reportedBy .keyIndexRange (s.v.get x).toNat s) := by
  simp only [keySkip, readV, skipIf_eq, report_eq]
  split <;> simp

/-- Everything a store at I can do: the font check, the bounds check, or the bytes (rules R70 to R72). -/
theorem storeAtI_eq (bs : List Byte) (s : State) :
    storeAtI bs s = .next (
      if s.i.toNat ≤ 0x04F then haltedBy .fontWriteViolation s.i.toNat s
      else if 0xFFF < s.i.toNat + (bs.length - 1) then haltedBy .memWriteOutOfBounds (s.i.toNat + (bs.length - 1)) s
      else { s with mem := s.mem.writeBytes s.i.toNat bs, pc := s.pc + 2 }) := by
  simp only [storeAtI, raise_eq, complete_eq, inFont_eq_true, outOfBounds_eq_true, lastFromI]
  split <;> [rfl; split <;> rfl]

/-- Rule R29: a push onto a stack with room. -/
theorem push_of_lt {s : State} (ret : Word) (h : s.sp.val < 16) :
    push ret s = some { s with stack := s.stack.set s.sp.val ret h, sp := ⟨s.sp.val + 1, Nat.succ_lt_succ h⟩ } :=
  dif_pos h

theorem push_full {s : State} (ret : Word) (h : s.sp.val = 16) : push ret s = none :=
  dif_neg (by rw [h]; decide)

theorem pop_empty {s : State} (h : s.sp.val = 0) : pop s = none := dif_pos h

/-- Rule R30: a pop from a stack in use. -/
theorem pop_of_pos {s : State} (h : 0 < s.sp.val) (j : Fin 16) (hj : j.val + 1 = s.sp.val) :
    pop s = some (s.stack.get j, { s with sp := ⟨j.val, by omega⟩ }) := by
  have hj' : s.sp.val - 1 = j.val := by omega
  rw [pop, dif_neg (by omega)]
  simp [hj', Vector.get_eq_getElem]

/-! ### Framebuffer -/

/-- Rule R10: one cell inverted, no other touched. -/
@[simp] theorem Framebuffer.pixel_flip (fb : Framebuffer) (px qx : Fin 64) (py qy : Fin 32) :
    (fb.flip px py).pixel qx qy = if qx = px ∧ qy = py then !fb.pixel px py else fb.pixel qx qy := by
  simp only [Framebuffer.pixel, Framebuffer.flip, get_set]
  by_cases hy : qy = py
  · subst hy; by_cases hx : qx = px <;> simp [hx]
  · simp [hy]

@[simp] theorem Framebuffer.pixel_clear (px : Fin 64) (py : Fin 32) : Framebuffer.clear.pixel px py = false := by
  simp [Framebuffer.pixel, Framebuffer.clear, Vector.get_eq_getElem]

/-- Two framebuffers with the same cells are the same. -/
theorem Framebuffer.ext_pixel {a b : Framebuffer} (h : ∀ px py, a.pixel px py = b.pixel px py) : a = b := by
  refine Vector.ext fun r hr => Vector.ext fun c hc => ?_
  exact h ⟨c, hc⟩ ⟨r, hr⟩

/-! ### Timers -/

/-- Rule R300: decremented by 1 if nonzero, clamped at 0. -/
@[simp] theorem countDown_toNat (t : Byte) : (countDown t).toNat = t.toNat - 1 := by
  rw [countDown]
  split
  · next h => rw [BitVec.toNat_sub]; have := t.isLt; simp; omega
  · next h => omega

end Sys2Proof.Machine
end

