-- ==== Sys2Proof/Laws/Draw.lean ====
section
/-! SUPPORT. The scan of a `Dxyn` as one fold over the cells its set bits fall on, and what it leaves: no cell is touched twice,
so every one of them meets the framebuffer as it was before the instruction (rules R200 to R204). -/

namespace Sys2Proof.Machine

theorem drawRow_eq (b x0 y0 : Byte) (row : Nat) (c : Canvas) :
    drawRow b x0 y0 row c =
      (((List.range 8).filter fun col => spriteBit b col).map fun col => (wrapCol x0 col, wrapRow y0 row)).foldl
        (fun c p => drawPixel p.1 p.2 c) c := by
  rw [List.foldl_map, List.foldl_filter]; rfl

theorem drawSprite_eq (mem : Memory) (base : Nat) (x0 y0 : Byte) (n : Nat) (c : Canvas) :
    drawSprite mem base x0 y0 n c =
      (spriteCells mem base x0 y0 n).foldl (fun c p => drawPixel p.1 p.2 c) c := by
  rw [drawSprite, spriteCells, List.foldl_flatMap]
  congr 1
  funext c row
  exact drawRow_eq _ _ _ _ _

/-- Drawing different cells one after another. -/
theorem foldl_drawPixel (l : List (Fin 64 × Fin 32)) (hl : l.Nodup) (c : Canvas) :
    (∀ px py, (l.foldl (fun c p => drawPixel p.1 p.2 c) c).fb.pixel px py =
      if (px, py) ∈ l then !c.fb.pixel px py else c.fb.pixel px py) ∧
    (l.foldl (fun c p => drawPixel p.1 p.2 c) c).hit = (c.hit || l.any fun p => c.fb.pixel p.1 p.2) ∧
    (l.foldl (fun c p => drawPixel p.1 p.2 c) c).drawn =
      c.drawn ++ l.map fun p => .displayDraw p.1 p.2 (c.fb.pixel p.1 p.2) := by
  induction l generalizing c with
  | nil => simp
  | cons p l ih =>
    obtain ⟨hp, hl⟩ := List.nodup_cons.1 hl
    obtain ⟨h1, h2, h3⟩ := ih hl (drawPixel p.1 p.2 c)
    have hne : ∀ q ∈ l, (drawPixel p.1 p.2 c).fb.pixel q.1 q.2 = c.fb.pixel q.1 q.2 := by
      intro q hq
      simp only [drawPixel, Framebuffer.pixel_flip]
      rw [if_neg]
      rintro ⟨h, h'⟩
      exact hp (by rwa [← Prod.ext h h'])
    refine ⟨fun px py => ?_, ?_, ?_⟩
    · rw [List.foldl_cons, h1]
      simp only [drawPixel, Framebuffer.pixel_flip, List.mem_cons]
      by_cases e : (px, py) = p
      · subst e; simp [hp]
      · have : ¬ (px = p.1 ∧ py = p.2) := fun h => e (Prod.ext h.1 h.2)
        simp [e, this]
    · rw [List.foldl_cons, h2, List.any_cons, ← Bool.or_assoc]
      congr 1
      rw [Bool.eq_iff_iff, List.any_eq_true, List.any_eq_true]
      exact ⟨fun ⟨q, a, b⟩ => ⟨q, a, by rwa [hne q a] at b⟩, fun ⟨q, a, b⟩ => ⟨q, a, by rwa [hne q a]⟩⟩
    · rw [List.foldl_cons, h3, List.map_cons]
      simp only [drawPixel, List.append_assoc, List.singleton_append]
      congr 2
      apply List.map_congr_left
      intro q hq
      have := hne q hq
      simp only [drawPixel] at this
      rw [this]

/-- The cells of the list are the cells the sprite sets. -/
theorem mem_spriteCells (mem : Memory) (base : Nat) (x0 y0 : Byte) (n : Nat) (px : Fin 64) (py : Fin 32) :
    (px, py) ∈ spriteCells mem base x0 y0 n ↔ spriteSets mem base x0 y0 n px py := by
  simp only [spriteCells, spriteSets, List.mem_flatMap, List.mem_range, List.mem_map, List.mem_filter, Prod.mk.injEq,
    Fin.ext_iff, Fin.ofNat]
  constructor
  · rintro ⟨row, h, col, ⟨h1, h2⟩, h3, h4⟩; exact ⟨row, h, col, h1, h2, h3, h4⟩
  · rintro ⟨row, h, col, h1, h2, h3, h4⟩; exact ⟨row, h, col, ⟨h1, h2⟩, h3, h4⟩

/-- A sprite is 8 wide and at most 15 high, so it never wraps onto itself. -/
theorem spriteCells_nodup (mem : Memory) (base : Nat) (x0 y0 : Byte) (n : Nat) (hn : n ≤ 32) :
    (spriteCells mem base x0 y0 n).Nodup := by
  rw [spriteCells, List.nodup_flatMap]
  constructor
  · intro row _
    refine List.Nodup.map_on ?_ (List.nodup_range.filter _)
    intro a ha b hb hab
    simp [Fin.ext_iff] at hab ha hb
    omega
  · refine List.Pairwise.imp_of_mem ?_ (List.nodup_range (n := n))
    intro a b ha hb hab
    simp only [Function.onFun, List.disjoint_left, List.mem_map, List.mem_filter, List.mem_range] at *
    rintro ⟨u, w⟩ ⟨c, _, hc⟩ ⟨d, _, hd⟩
    simp [Fin.ext_iff] at hc hd
    omega

/-- What the scan of a `Dxyn` leaves: the sprite's cells inverted, the collision, the events. -/
theorem scanned_spec (x y : RegNum) (n : Nibble) (s : State) :
    (∀ px py, (scanned x y n s).fb.pixel px py =
      if (px, py) ∈ spriteCells s.mem s.i.toNat (s.v.get x) (s.v.get y) n.toNat then !s.fb.pixel px py
      else s.fb.pixel px py) ∧
    (scanned x y n s).hit =
      ((spriteCells s.mem s.i.toNat (s.v.get x) (s.v.get y) n.toNat).any fun p => s.fb.pixel p.1 p.2) ∧
    (scanned x y n s).drawn =
      (spriteCells s.mem s.i.toNat (s.v.get x) (s.v.get y) n.toNat).map
        fun p => .displayDraw p.1 p.2 (s.fb.pixel p.1 p.2) := by
  have := foldl_drawPixel _
    (spriteCells_nodup s.mem s.i.toNat (s.v.get x) (s.v.get y) n.toNat (by have := n.isLt; omega)) ⟨s.fb, false, []⟩
  rw [← drawSprite_eq] at this
  simpa [scanned, readV] using this

/-- Every event of a scan is a `DisplayDraw`. -/
theorem scanned_drawn (x y : RegNum) (n : Nibble) (s : State) :
    ∀ o ∈ (scanned x y n s).drawn, ∃ px py b, o = .displayDraw px py b := by
  rw [(scanned_spec x y n s).2.2]
  intro o ho
  obtain ⟨p, _, rfl⟩ := List.mem_map.1 ho
  exact ⟨_, _, _, rfl⟩

end Sys2Proof.Machine
end

