-- ==== Sys2Proof/Laws/Encoding.lean ====
section
/-! SUPPORT. The fields of each format of rule R91 read back, and a word as the formats put it together. -/

namespace Sys2Proof

@[simp] theorem regOf_regBits (r : RegNum) : regOf (regBits r) = r := rfl

@[simp] theorem regBits_regOf (b : Nibble) : regBits (regOf b) = b := rfl

theorem extract_high {v w : Nat} (a : BitVec v) (b : BitVec w) : (a ++ b).extractLsb' w v = a := by
  rw [BitVec.extractLsb'_append_eq_ite, dif_neg (Nat.lt_irrefl w), Nat.sub_self]
  exact BitVec.extractLsb'_eq_self

theorem extract_low {v w : Nat} (a : BitVec v) (b : BitVec w) {i n : Nat} (hn : 0 < n) (h : i + n ≤ w) :
    (a ++ b).extractLsb' i n = b.extractLsb' i n := by
  rw [BitVec.extractLsb'_append_eq_ite, dif_pos (by omega), dif_pos h]

/-- Two neighbouring fields joined are the one field they make up. -/
theorem join_fields {m w i v : Nat} (op : BitVec m) :
    op.extractLsb' (i + w) v ++ op.extractLsb' i w = op.extractLsb' i (v + w) :=
  BitVec.extractLsb'_append_extractLsb'_eq_extractLsb' rfl

@[simp] theorem fieldFamily_formatNNN (f : Nibble) (a : Addr12) : fieldFamily (formatNNN f a) = f := extract_high f a

@[simp] theorem fieldNNN_formatNNN (f : Nibble) (a : Addr12) : fieldNNN (formatNNN f a) = a :=
  (extract_low f a (by decide) (by decide)).trans BitVec.extractLsb'_eq_self

@[simp] theorem fieldFamily_formatXKK (f : Nibble) (x : RegNum) (k : Byte) : fieldFamily (formatXKK f x k) = f :=
  extract_high f (regBits x ++ k)

@[simp] theorem fieldX_formatXKK (f : Nibble) (x : RegNum) (k : Byte) : fieldX (formatXKK f x k) = regBits x :=
  (extract_low f (regBits x ++ k) (by decide) (by decide)).trans (extract_high (regBits x) k)

@[simp] theorem fieldKK_formatXKK (f : Nibble) (x : RegNum) (k : Byte) : fieldKK (formatXKK f x k) = k :=
  (extract_low f (regBits x ++ k) (by decide) (by decide)).trans
    ((extract_low (regBits x) k (by decide) (by decide)).trans BitVec.extractLsb'_eq_self)

@[simp] theorem fieldFamily_formatXYN (f : Nibble) (x y : RegNum) (n : Nibble) :
    fieldFamily (formatXYN f x y n) = f := extract_high f (regBits x ++ (regBits y ++ n))

@[simp] theorem fieldX_formatXYN (f : Nibble) (x y : RegNum) (n : Nibble) : fieldX (formatXYN f x y n) = regBits x :=
  (extract_low f (regBits x ++ (regBits y ++ n)) (by decide) (by decide)).trans
    (extract_high (regBits x) (regBits y ++ n))

@[simp] theorem fieldY_formatXYN (f : Nibble) (x y : RegNum) (n : Nibble) : fieldY (formatXYN f x y n) = regBits y :=
  (extract_low f (regBits x ++ (regBits y ++ n)) (by decide) (by decide)).trans
    ((extract_low (regBits x) (regBits y ++ n) (by decide) (by decide)).trans (extract_high (regBits y) n))

@[simp] theorem fieldN_formatXYN (f : Nibble) (x y : RegNum) (n : Nibble) : fieldN (formatXYN f x y n) = n :=
  (extract_low f (regBits x ++ (regBits y ++ n)) (by decide) (by decide)).trans
    ((extract_low (regBits x) (regBits y ++ n) (by decide) (by decide)).trans
      ((extract_low (regBits y) n (by decide) (by decide)).trans BitVec.extractLsb'_eq_self))

/-- Every word is of format NNN. -/
theorem formatNNN_fields (op : Word) : formatNNN (fieldFamily op) (fieldNNN op) = op :=
  (join_fields (w := 12) (i := 0) (v := 4) op).trans BitVec.extractLsb'_eq_self

/-- The low twelve bits of a word, as format XKK lays them out. -/
theorem fieldNNN_eq_xkk (op : Word) : fieldX op ++ fieldKK op = fieldNNN op :=
  join_fields (w := 8) (i := 0) (v := 4) op

/-- The low byte of a word, as format XYN lays it out. -/
theorem fieldKK_eq_yn (op : Word) : fieldY op ++ fieldN op = fieldKK op := join_fields (w := 4) (i := 0) (v := 4) op

/-- Every word is of format XKK. -/
theorem formatXKK_fields (op : Word) : formatXKK (fieldFamily op) (regOf (fieldX op)) (fieldKK op) = op := by
  have h := formatNNN_fields op
  rw [← fieldNNN_eq_xkk] at h
  exact h

/-- Every word is of format XYN. -/
theorem formatXYN_fields (op : Word) :
    formatXYN (fieldFamily op) (regOf (fieldX op)) (regOf (fieldY op)) (fieldN op) = op := by
  have h := formatXKK_fields op
  rw [← fieldKK_eq_yn] at h
  exact h

/-- A mask that ends in twelve zero bits keeps the family of format NNN. -/
theorem formatNNN_and_family (f : Nibble) (a : Addr12) : formatNNN f a &&& 0xF000 = formatNNN f 0 := by
  rw [formatNNN, show (0xF000 : Word) = (0xF#4 ++ 0#12 : Word) by decide, BitVec.and_append]
  simp [formatNNN, show f &&& 15#4 = f from BitVec.and_allOnes]

theorem formatXKK_and_family (f : Nibble) (x : RegNum) (k : Byte) : formatXKK f x k &&& 0xF000 = formatNNN f 0 := by
  rw [formatXKK, show (0xF000 : Word) = (0xF#4 ++ 0#12 : Word) by decide, BitVec.and_append]
  simp [formatNNN, show f &&& 15#4 = f from BitVec.and_allOnes]

theorem formatXYN_and_family (f : Nibble) (x y : RegNum) (n : Nibble) :
    formatXYN f x y n &&& 0xF000 = formatNNN f 0 := by
  rw [formatXYN, show (0xF000 : Word) = (0xF#4 ++ 0#12 : Word) by decide, BitVec.and_append]
  simp [formatNNN, show f &&& 15#4 = f from BitVec.and_allOnes]

/-- The mask 0xF0FF drops the register field of format XKK. -/
theorem formatXKK_and_dropX (f : Nibble) (x : RegNum) (k : Byte) : formatXKK f x k &&& 0xF0FF = formatXKK f 0 k := by
  rw [formatXKK, show (0xF0FF : Word) = (0xF#4 ++ (0#4 ++ 0xFF#8) : Word) by decide, BitVec.and_append, BitVec.and_append]
  simp [formatXKK, show f &&& 15#4 = f from BitVec.and_allOnes, show k &&& 255#8 = k from BitVec.and_allOnes, regBits]

/-- The mask 0xF00F drops both register fields of format XYN. -/
theorem formatXYN_and_dropXY (f : Nibble) (x y : RegNum) (n : Nibble) :
    formatXYN f x y n &&& 0xF00F = formatXYN f 0 0 n := by
  rw [formatXYN, show (0xF00F : Word) = (0xF#4 ++ (0#4 ++ (0#4 ++ 0xF#4)) : Word) by decide, BitVec.and_append,
    BitVec.and_append, BitVec.and_append]
  simp [formatXYN, show f &&& 15#4 = f from BitVec.and_allOnes, show n &&& 15#4 = n from BitVec.and_allOnes, regBits]

/-- The two bytes of a word are the word (rule R62). -/
@[simp] theorem wordOfBytes_bytesOfWord (op : Word) : wordOfBytes (op.extractLsb' 8 8) (op.extractLsb' 0 8) = op :=
  (join_fields (w := 8) (i := 0) (v := 8) op).trans BitVec.extractLsb'_eq_self

end Sys2Proof
end

