-- ==== Sys2Proof/Laws/Exec.lean ====
section
/-! SUPPORT. What each instruction with more than one outcome answers, as one equation to cite instead of unfolding `exec`. Every
other arm of `exec` is `.next` of one state by definition. -/

namespace Sys2Proof.Machine

/-- Rule R142. -/
theorem exec_ret_eq (s : State) :
    exec .ret s = .next (
      if _h : s.sp.val = 0 then haltedBy .stackUnderflow 0 s
      else { s with
        pc := s.stack.get ⟨s.sp.val - 1, by have := s.sp.isLt; omega⟩
        sp := ⟨s.sp.val - 1, by omega⟩ }) := by
  by_cases h : s.sp.val = 0
  · simp [exec, execRet, pop_empty h, raise_eq, h]
  · have e := pop_of_pos (s := s) (by omega) ⟨s.sp.val - 1, by have := s.sp.isLt; omega⟩ (by simp; omega)
    simp [exec, execRet, e, h]

/-- Rule R143. -/
theorem exec_jp_eq (nnn : Addr12) (s : State) :
    exec (.jp nnn) s = .next (
      if nnn.toNat % 2 = 1 then haltedBy .misalignedTarget nnn.toNat s else { s with pc := addrWord nnn }) := by
  have h : exec (.jp nnn) s = _ := jumpTo_eq (addrWord nnn) s
  rwa [addrWord_toNat] at h

/-- Rule R144. -/
theorem exec_call_eq (nnn : Addr12) (s : State) :
    exec (.call nnn) s = .next (
      if nnn.toNat % 2 = 1 then haltedBy .misalignedTarget nnn.toNat s
      else if h : s.sp.val < 16 then
        { s with
          pc := addrWord nnn
          sp := ⟨s.sp.val + 1, by omega⟩
          stack := s.stack.set s.sp.val (s.pc + 2) }
      else haltedBy .stackOverflow nnn.toNat s) := by
  simp only [exec, execCall, oddTarget_eq, addrWord_toNat, raise_eq, decide_eq_true_iff]
  split
  · rfl
  · by_cases h : s.sp.val < 16
    · simp [push_of_lt _ h, h]
    · simp [push_full _ (show s.sp.val = 16 by omega), h]

/-- Rule R192. -/
theorem exec_jpV0_eq (nnn : Addr12) (s : State) :
    exec (.jpV0 nnn) s = .next (
      if ((s.v.get 0).toNat + nnn.toNat) % 2 = 1 then haltedBy .misalignedTarget ((s.v.get 0).toNat + nnn.toNat) s
      else { s with pc := offsetTarget s nnn }) := by
  have h : exec (.jpV0 nnn) s = _ := jumpTo_eq (offsetTarget s nnn) s
  rwa [offsetTarget_toNat] at h

/-- Rule R211. -/
theorem exec_skp_eq (x : RegNum) (s : State) :
    exec (.skp x) s = .next (
      if h : (s.v.get x).toNat < 16 then
        { s with pc := if s.key[(s.v.get x).toNat] = true then s.pc + 4 else s.pc + 2 }
      else reportedBy .keyIndexRange (s.v.get x).toNat s) := keySkip_eq x true s

/-- Rule R212. -/
theorem exec_sknp_eq (x : RegNum) (s : State) :
    exec (.sknp x) s = .next (
      if h : (s.v.get x).toNat < 16 then
        { s with pc := if s.key[(s.v.get x).toNat] = false then s.pc + 4 else s.pc + 2 }
      else reportedBy .keyIndexRange (s.v.get x).toNat s) := keySkip_eq x false s

/-- Rules R200 and R205. -/
theorem exec_drw_eq (x y : RegNum) (n : Nibble) (s : State) :
    exec (.drw x y n) s = .next (
      if 0 < n.toNat ∧ 0xFFF < lastFromI s n.toNat then reportedBy .memReadOutOfBounds (lastFromI s n.toNat) s
      else { s with
        pc := s.pc + 2
        fb := (scanned x y n s).fb
        out := s.out ++ (scanned x y n s).drawn
        v := s.v.set 15 (flagByte (scanned x y n s).hit) }) := by
  simp only [exec, execDrw, report_eq, Bool.and_eq_true, decide_eq_true_iff, outOfBounds_eq_true]
  split <;> rfl

/-- Rule R228. -/
theorem exec_addI_eq (x : RegNum) (s : State) :
    exec (.addI x) s = .next (
      if 0xFFF < s.i.toNat + (s.v.get x).toNat then reportedBy .indexRange (s.i.toNat + (s.v.get x).toNat) s
      else { s with pc := s.pc + 2, i := BitVec.ofNat 16 (s.i.toNat + (s.v.get x).toNat) }) := by
  simp only [exec, execAddI, readV, report_eq, outOfBounds_eq_true]
  split <;> rfl

/-- Rule R232. -/
theorem exec_ldB_eq (x : RegNum) (s : State) :
    exec (.ldB x) s = .next (
      if s.i.toNat ≤ 0x04F then haltedBy .fontWriteViolation s.i.toNat s
      else if 0xFFF < s.i.toNat + 2 then haltedBy .memWriteOutOfBounds (s.i.toNat + 2) s
      else { s with mem := s.mem.writeBytes s.i.toNat (bcdDigits (s.v.get x)), pc := s.pc + 2 }) :=
  storeAtI_eq (bcdDigits (s.v.get x)) s

/-- Rule R236. -/
theorem exec_storeRegs_eq (x : RegNum) (s : State) :
    exec (.storeRegs x) s = .next (
      if s.i.toNat ≤ 0x04F then haltedBy .fontWriteViolation s.i.toNat s
      else if 0xFFF < s.i.toNat + x.val then haltedBy .memWriteOutOfBounds (s.i.toNat + x.val) s
      else { s with mem := s.mem.writeBytes s.i.toNat (regsUpTo s x), pc := s.pc + 2 }) := by
  have h : exec (.storeRegs x) s = _ := storeAtI_eq (regsUpTo s x) s
  rwa [regsUpTo_length, Nat.add_sub_cancel] at h

/-- Rule R236, of a store that did not halt: the range was legal, and the bytes are in memory. -/
theorem exec_storeRegs_done {x : RegNum} {s t : State} (h : exec (.storeRegs x) s = .next t) (ht : t.run ≠ .halted) :
    0x050 ≤ s.i.toNat ∧ s.i.toNat + x.val ≤ 0xFFF ∧
      t = { s with mem := s.mem.writeBytes s.i.toNat (regsUpTo s x), pc := s.pc + 2 } := by
  rw [exec_storeRegs_eq] at h
  obtain rfl := Host.Outcome.next.inj h
  by_cases hf : s.i.toNat ≤ 0x04F
  · rw [if_pos hf] at ht; exact absurd rfl ht
  · rw [if_neg hf] at ht ⊢
    by_cases hb : 0xFFF < s.i.toNat + x.val
    · rw [if_pos hb] at ht; exact absurd rfl ht
    · exact ⟨by omega, by omega, if_neg hb⟩

/-- The bytes of a store, read back one by one (rule R236). -/
theorem read_stored_reg (s : State) (x r : RegNum) (h : r ≤ x) :
    (s.mem.writeBytes s.i.toNat (regsUpTo s x)).read (s.i.toNat + r.val) = s.v.get r := by
  rw [Memory.read_writeBytes, if_pos (Nat.le_add_right _ _), Nat.add_sub_cancel_left]
  exact regsUpTo_getD s x r h _

/-- Rule R240. -/
theorem exec_loadRegs_eq (x : RegNum) (s : State) :
    exec (.loadRegs x) s = .next (
      if 0xFFF < s.i.toNat + x.val then reportedBy .memReadOutOfBounds (s.i.toNat + x.val) s
      else { s with pc := s.pc + 2, v := loadedRegs s x }) := by
  simp only [exec, execLoadRegs, report_eq, outOfBounds_eq_true, lastFromI, Nat.add_sub_cancel]
  split <;> rfl

/-- No instruction stops: each answers a next state. -/
theorem exec_next (i : Instr) (s : State) : ∃ t, exec i s = .next t := by
  cases i
  case ret => exact ⟨_, exec_ret_eq s⟩
  case jp => exact ⟨_, exec_jp_eq _ s⟩
  case call => exact ⟨_, exec_call_eq _ s⟩
  case jpV0 => exact ⟨_, exec_jpV0_eq _ s⟩
  case skp => exact ⟨_, exec_skp_eq _ s⟩
  case sknp => exact ⟨_, exec_sknp_eq _ s⟩
  case drw => exact ⟨_, exec_drw_eq _ _ _ s⟩
  case addI => exact ⟨_, exec_addI_eq _ s⟩
  case ldB => exact ⟨_, exec_ldB_eq _ s⟩
  case storeRegs => exact ⟨_, exec_storeRegs_eq _ s⟩
  case loadRegs => exact ⟨_, exec_loadRegs_eq _ s⟩
  all_goals exact ⟨_, rfl⟩

end Sys2Proof.Machine
end

