-- ==== Sys2Proof/Laws/Frame.lean ====
section
/-! SUPPORT. The frame loop: a step as a phase, the frame's bookkeeping that no cycle touches, an event list taken apart, and a
run of steps. -/

namespace Sys2Proof.Machine

/-- Rule R251: while frames run, a step is the phase. -/
theorem step_of_framesRun {s : State} (h : s.FramesRun) : step s = performPhase s := by
  rcases h with h | ⟨t, h⟩ <;> simp [step, frameStep, h]

/-- Rules R125 and R251: where a step answers a next state, frames run. -/
theorem framesRun_of_step {s t : State} (h : step s = .next t) : s.FramesRun := by
  unfold step frameStep at h
  split at h <;> first | exact .inl ‹_› | exact .inr ⟨_, ‹_›⟩ | cases h

/-- What the frame loop alone writes, set to given values. -/
def withBook (p : Phase) (e : List (List HostEvent)) (n : Nat) (a : Bool) (s : State) : State :=
  { s with phase := p, events := e, polls := n, audioOn := a }

/-- No instruction reads the frame's bookkeeping or AUDIO_ON, and none writes it. -/
theorem exec_withBook (p : Phase) (e : List (List HostEvent)) (n : Nat) (a : Bool) (i : Instr) (s : State) :
    exec i (withBook p e n a s) = mapNext (withBook p e n a) (exec i s) := by
  cases i
  case ret => rw [exec_ret_eq, exec_ret_eq, mapNext, apply_dite (withBook p e n a)]; rfl
  case jp => rw [exec_jp_eq, exec_jp_eq, mapNext, apply_ite (withBook p e n a)]; rfl
  case call =>
    rw [exec_call_eq, exec_call_eq, mapNext, apply_ite (withBook p e n a), apply_dite (withBook p e n a)]; rfl
  case jpV0 => rw [exec_jpV0_eq, exec_jpV0_eq, mapNext, apply_ite (withBook p e n a)]; rfl
  case skp => rw [exec_skp_eq, exec_skp_eq, mapNext, apply_dite (withBook p e n a)]; rfl
  case sknp => rw [exec_sknp_eq, exec_sknp_eq, mapNext, apply_dite (withBook p e n a)]; rfl
  case drw => rw [exec_drw_eq, exec_drw_eq, mapNext, apply_ite (withBook p e n a)]; rfl
  case addI => rw [exec_addI_eq, exec_addI_eq, mapNext, apply_ite (withBook p e n a)]; rfl
  case ldB => rw [exec_ldB_eq, exec_ldB_eq]; simp only [mapNext, apply_ite (withBook p e n a)]; rfl
  case storeRegs => rw [exec_storeRegs_eq, exec_storeRegs_eq]; simp only [mapNext, apply_ite (withBook p e n a)]; rfl
  case loadRegs => rw [exec_loadRegs_eq, exec_loadRegs_eq, mapNext, apply_ite (withBook p e n a)]; rfl
  all_goals rfl

/-- The same of a whole cycle. -/
theorem cycle_withBook (p : Phase) (e : List (List HostEvent)) (n : Nat) (a : Bool) (s : State) :
    cycle (withBook p e n a s) = mapNext (withBook p e n a) (cycle s) := by
  unfold cycle
  rw [show (withBook p e n a s).run = s.run from rfl]
  cases s.run with
  | running =>
    simp only [instructionCycle]
    rw [show (withBook p e n a s).pc = s.pc from rfl, show fetchWord (withBook p e n a s) = fetchWord s from rfl]
    split
    · rfl
    · split
      · exact exec_withBook ..
      · rfl
  | waitingForKey t =>
    simp only [keyWaitCheck]
    rw [show (withBook p e n a s).newPress = s.newPress from rfl]
    split <;> rfl
  | _ => rfl

/-- While frames run, a cycle answers a next state. -/
theorem cycle_next {s : State} (h : s.FramesRun) : ∃ t, cycle s = .next t := by
  rcases h with h | ⟨t, h⟩
  · simp only [cycle, h, instructionCycle]
    split
    · exact ⟨_, rfl⟩
    · split
      · exact exec_next ..
      · exact ⟨_, rfl⟩
  · simp only [cycle, h, keyWaitCheck]
    split <;> exact ⟨_, rfl⟩

@[simp] theorem poll_nil (s : State) : poll [] s = s := rfl

theorem poll_cons (e : HostEvent) (evs : List HostEvent) (s : State) : poll (e :: evs) s = poll evs (applyEvent s e) := rfl

theorem poll_append (a b : List HostEvent) (s : State) : poll (a ++ b) s = poll b (poll a s) := List.foldl_append

theorem steps_add (a b : Nat) (s : State) : steps (a + b) s = andThen (steps a s) (steps b) := by
  induction a generalizing s with
  | zero => simp [steps]
  | succ a ih =>
    rw [Nat.succ_add]; simp only [steps]
    cases step s with
    | next t => exact ih t
    | _ => rfl

/-- One step more, on the host's side. -/
theorem core_run_succ (M : Host.Core) (k : Nat) (s : M.State) :
    M.run (k + 1) s =
      match M.step s with
      | .next t => M.run k t
      | .fault r => .fault r
      | .refused r => .refused r := rfl

/-- `steps` is the host's run of this machine. -/
theorem steps_eq_run (k : Nat) (s : State) : steps k s = Sys2Proof.core.run k s := by
  induction k generalizing s with
  | zero => rfl
  | succ k ih =>
    refine Eq.trans ?_ (core_run_succ Sys2Proof.core k s).symm
    have h : Sys2Proof.core.step s = step s := rfl
    rw [steps, h]
    cases step s with
    | next t => exact ih t
    | fault r => rfl
    | refused r => rfl

end Sys2Proof.Machine
end

