-- ==== Sys2Proof/Laws/PerInstr.lean ====
section
/-! SUPPORT. Family EncodesInRow: the word of an instruction is selected by the row of rule R96 the instruction belongs to, one
lemma per constructor. -/

namespace Sys2Proof.Laws.EncodesInRow

/-- The row of the instruction selects its word (rule R96). -/
def Statement (i : Instr) : Prop := encode i &&& (rowOf i).mask = (rowOf i).pattern

theorem cls : Statement (.cls) := rfl

theorem ret : Statement (.ret) := rfl

theorem jp (nnn : Addr12) : Statement (.jp nnn) := (formatNNN_and_family _ _).trans rfl

theorem call (nnn : Addr12) : Statement (.call nnn) := (formatNNN_and_family _ _).trans rfl

theorem seImm (x : RegNum) (kk : Byte) : Statement (.seImm x kk) := (formatXKK_and_family _ _ _).trans rfl

theorem sneImm (x : RegNum) (kk : Byte) : Statement (.sneImm x kk) := (formatXKK_and_family _ _ _).trans rfl

theorem seReg (x y : RegNum) : Statement (.seReg x y) := (formatXYN_and_dropXY _ _ _ _).trans rfl

theorem ldImm (x : RegNum) (kk : Byte) : Statement (.ldImm x kk) := (formatXKK_and_family _ _ _).trans rfl

theorem addImm (x : RegNum) (kk : Byte) : Statement (.addImm x kk) := (formatXKK_and_family _ _ _).trans rfl

theorem ldReg (x y : RegNum) : Statement (.ldReg x y) := (formatXYN_and_dropXY _ _ _ _).trans rfl

theorem orReg (x y : RegNum) : Statement (.orReg x y) := (formatXYN_and_dropXY _ _ _ _).trans rfl

theorem andReg (x y : RegNum) : Statement (.andReg x y) := (formatXYN_and_dropXY _ _ _ _).trans rfl

theorem xorReg (x y : RegNum) : Statement (.xorReg x y) := (formatXYN_and_dropXY _ _ _ _).trans rfl

theorem addReg (x y : RegNum) : Statement (.addReg x y) := (formatXYN_and_dropXY _ _ _ _).trans rfl

theorem subReg (x y : RegNum) : Statement (.subReg x y) := (formatXYN_and_dropXY _ _ _ _).trans rfl

theorem shr (x y : RegNum) : Statement (.shr x y) := (formatXYN_and_dropXY _ _ _ _).trans rfl

theorem subnReg (x y : RegNum) : Statement (.subnReg x y) := (formatXYN_and_dropXY _ _ _ _).trans rfl

theorem shl (x y : RegNum) : Statement (.shl x y) := (formatXYN_and_dropXY _ _ _ _).trans rfl

theorem sneReg (x y : RegNum) : Statement (.sneReg x y) := (formatXYN_and_dropXY _ _ _ _).trans rfl

theorem ldI (nnn : Addr12) : Statement (.ldI nnn) := (formatNNN_and_family _ _).trans rfl

theorem jpV0 (nnn : Addr12) : Statement (.jpV0 nnn) := (formatNNN_and_family _ _).trans rfl

theorem rnd (x : RegNum) (kk : Byte) : Statement (.rnd x kk) := (formatXKK_and_family _ _ _).trans rfl

theorem drw (x y : RegNum) (n : Nibble) : Statement (.drw x y n) := (formatXYN_and_family _ _ _ _).trans rfl

theorem skp (x : RegNum) : Statement (.skp x) := (formatXKK_and_dropX _ _ _).trans rfl

theorem sknp (x : RegNum) : Statement (.sknp x) := (formatXKK_and_dropX _ _ _).trans rfl

theorem ldVxDt (x : RegNum) : Statement (.ldVxDt x) := (formatXKK_and_dropX _ _ _).trans rfl

theorem ldVxK (x : RegNum) : Statement (.ldVxK x) := (formatXKK_and_dropX _ _ _).trans rfl

theorem ldDtVx (x : RegNum) : Statement (.ldDtVx x) := (formatXKK_and_dropX _ _ _).trans rfl

theorem ldStVx (x : RegNum) : Statement (.ldStVx x) := (formatXKK_and_dropX _ _ _).trans rfl

theorem addI (x : RegNum) : Statement (.addI x) := (formatXKK_and_dropX _ _ _).trans rfl

theorem ldF (x : RegNum) : Statement (.ldF x) := (formatXKK_and_dropX _ _ _).trans rfl

theorem ldB (x : RegNum) : Statement (.ldB x) := (formatXKK_and_dropX _ _ _).trans rfl

theorem storeRegs (x : RegNum) : Statement (.storeRegs x) := (formatXKK_and_dropX _ _ _).trans rfl

theorem loadRegs (x : RegNum) : Statement (.loadRegs x) := (formatXKK_and_dropX _ _ _).trans rfl

end Sys2Proof.Laws.EncodesInRow
end

