-- ==== Sys2Proof/Laws/Reset.lean ====
section
/-! SUPPORT. Reset as its two outcomes (rules R320 and R322), and what the placing of a word leaves. -/

namespace Sys2Proof.Machine

theorem wellFormedImage_iff (rom : List Byte) : wellFormedImage rom = true ↔ rom.length ≤ 3584 := decide_eq_true_iff

/-- Rules R320 and R321: an image that fits. -/
theorem resetWith_fits (n : Nat) (font : Vector Byte 80) (fb : Framebuffer) {rom : List Byte} (h : rom.length ≤ 3584) :
    resetWith n font fb rom =
      { State.reset with
        slotsPerFrame := n, fb := fb
        mem := (Memory.writeBytes [] 0 font.toList).writeBytes 0x200 rom } :=
  if_pos ((wellFormedImage_iff rom).2 h)

/-- Rules R285 and R322: an image that does not fit. -/
theorem resetWith_tooLarge (n : Nat) (font : Vector Byte 80) (fb : Framebuffer) {rom : List Byte}
    (h : 3584 < rom.length) :
    resetWith n font fb rom =
      { State.reset with
        slotsPerFrame := n, fb := fb, mem := Memory.writeBytes [] 0 font.toList, run := .loadFailed
        fault := some ⟨.loadError, 0, rom.length⟩, out := [.diag ⟨.loadError, 0, rom.length⟩] } :=
  if_neg fun h' => Nat.not_le.2 h ((wellFormedImage_iff rom).1 h')

/-- An address past the font reads as 0 where nothing is listed (rule R43). -/
theorem unlisted_past_font {a : Nat} (h : 0x050 ≤ a) : unlisted a = 0 := List.getD_eq_default _ _ h

/-- The 80 bytes of the default font of rule R66, as the open parameter FONT. -/
def fontVector : Vector Byte 80 := ⟨fontDefault.toArray, by decide⟩

/-- Bytes that unlisted addresses read as anyway list nothing. -/
theorem writeBytes_unlisted (bs : List Byte) (a : Nat) (h : ∀ k, k < bs.length → bs.getD k 0 = unlisted (a + k)) :
    Memory.writeBytes [] a bs = [] := by
  induction bs generalizing a with
  | nil => rfl
  | cons b bs ih =>
    have hb : b = unlisted a := h 0 (Nat.succ_pos _)
    rw [Memory.writeBytes, Memory.write, if_pos hb]
    refine ih (a + 1) fun k hk => ?_
    rw [Nat.add_right_comm a 1 k]
    exact h (k + 1) (Nat.succ_lt_succ hk)

/-- `State.reset` is the reset with the empty image, eight slots, the default font and a display all off: log entries 2 to 5. -/
theorem reset_eq_resetWith : State.reset = resetWith 8 fontVector Framebuffer.clear [] := by
  have h : (Memory.writeBytes [] 0 fontVector.toList : Memory) = [] :=
    writeBytes_unlisted fontDefault 0 fun k _ => by rw [Nat.zero_add]; rfl
  rw [resetWith_fits _ _ _ (by decide), h]
  rfl

end Sys2Proof.Machine
end

