-- ==== Sys2Proof/Tests/Slice0.lean ====
section
/-! SUPPORT. The model's own tests. Every expected value of a decoding or of a step is from the spec: the encodings of rule R96 and
the vectors T40 to T48, F1 and F2 of its file 95_test_vectors.md, named at each test. The last part shows, for each statement
of Obligations.lean that has hypotheses, a concrete state and operands that meet them, at the ends of its ranges. -/

namespace Sys2Proof.Tests

open Sys2Proof Sys2Proof.Machine

/-! ### Helpers -/

/-- The registers with some of them set, the others 0. -/
def regs (l : List (RegNum × Byte)) : Vector Byte 16 := l.foldl (fun v p => v.set p.1.val p.2) State.reset.v

/-- The state after reset with some registers set. -/
def withRegs (l : List (RegNum × Byte)) : State := { State.reset with v := regs l }

/-- The keypad with the keys of the list down. -/
def keysDown (l : List KeyNum) : Vector Bool 16 := l.foldl (fun v k => v.set k.val true) State.reset.key

/-- The next state, where there is one. -/
def nextOf (r : Result) : Option State :=
  match r with
  | .next t => some t
  | .fault _ | .refused _ => none

/-- The state after the one step that runs the word, or `s` where that step stops. -/
def after (w : Nat) (s : State) : State := (nextOf (step (s.withFetchWord 16 w))).getD s

/-- The state at the first slot of a batch. -/
def atSlot (s : State) : State := { s with phase := .batch 0 }

/-! ### WellFormed: each check refuses an ill-formed term -/

theorem test_wellFormedWord_refuses_undefined :
    ([0x0000, 0x00E1, 0x5121, 0x8128, 0x812F, 0x9125, 0xE29F, 0xF108, 0xF175] : List Word).all
      (fun w => !wellFormedWord w) = true := by decide
theorem test_wellFormedWord_accepts : wellFormedWord 0x00E0 = true ∧ wellFormedWord 0xFF65 = true := by decide
theorem test_wellFormedImage_refuses_3585 : wellFormedImage (List.replicate 3585 0) = false := by
  rw [wellFormedImage, List.length_replicate]; decide
theorem test_wellFormedImage_accepts_3584 : wellFormedImage (List.replicate 3584 0) = true := by
  rw [wellFormedImage, List.length_replicate]; decide
theorem test_wellFormedSlots :
    wellFormedSlots 7 = false ∧ wellFormedSlots 8 = true ∧ wellFormedSlots 16 = true ∧ wellFormedSlots 17 = false := by
  decide

/-! ### Decode: one word of every row of rule R96, written out bit by bit -/

theorem test_decode_family0 :
    decodeWord 0b0000000011100000 = .instr .cls ∧ decodeWord 0b0000000011101110 = .instr .ret := by decide
theorem test_decode_jp_call :
    decodeWord 0b0001101010111100 = .instr (.jp 0xABC) ∧ decodeWord 0b0010101010111100 = .instr (.call 0xABC) := by decide
theorem test_decode_skips :
    decodeWord 0b0011101001000010 = .instr (.seImm 0xA 0x42) ∧ decodeWord 0b0100101001000010 = .instr (.sneImm 0xA 0x42) ∧
    decodeWord 0b0101000100100000 = .instr (.seReg 1 2) ∧ decodeWord 0b1001000100100000 = .instr (.sneReg 1 2) := by decide
theorem test_decode_immediate :
    decodeWord 0b0110111100000101 = .instr (.ldImm 0xF 0x05) ∧ decodeWord 0b0111000000000011 = .instr (.addImm 0 0x03) := by
  decide
theorem test_decode_family8_logic :
    decodeWord 0b1000000100100000 = .instr (.ldReg 1 2) ∧ decodeWord 0b1000000100100001 = .instr (.orReg 1 2) ∧
    decodeWord 0b1000000100100010 = .instr (.andReg 1 2) ∧ decodeWord 0b1000000100100011 = .instr (.xorReg 1 2) := by decide
theorem test_decode_family8_arithmetic :
    decodeWord 0b1000000100100100 = .instr (.addReg 1 2) ∧ decodeWord 0b1000000100100101 = .instr (.subReg 1 2) ∧
    decodeWord 0b1000000100100110 = .instr (.shr 1 2) ∧ decodeWord 0b1000000100100111 = .instr (.subnReg 1 2) ∧
    decodeWord 0b1000000100101110 = .instr (.shl 1 2) := by decide
theorem test_decode_families_A_to_D :
    decodeWord 0b1010000100100011 = .instr (.ldI 0x123) ∧ decodeWord 0b1011001100000000 = .instr (.jpV0 0x300) ∧
    decodeWord 0b1100000100001111 = .instr (.rnd 1 0x0F) ∧ decodeWord 0b1101000100100101 = .instr (.drw 1 2 5) := by decide
theorem test_decode_familyE :
    decodeWord 0b1110001010011110 = .instr (.skp 2) ∧ decodeWord 0b1110001010100001 = .instr (.sknp 2) := by decide
theorem test_decode_familyF_timers_index :
    decodeWord 0b1111001100000111 = .instr (.ldVxDt 3) ∧ decodeWord 0b1111010100001010 = .instr (.ldVxK 5) ∧
    decodeWord 0b1111001100010101 = .instr (.ldDtVx 3) ∧ decodeWord 0b1111001100011000 = .instr (.ldStVx 3) ∧
    decodeWord 0b1111001000011110 = .instr (.addI 2) := by decide
theorem test_decode_familyF_memory :
    decodeWord 0b1111010000101001 = .instr (.ldF 4) ∧ decodeWord 0b1111000100110011 = .instr (.ldB 1) ∧
    decodeWord 0b1111001001010101 = .instr (.storeRegs 2) ∧ decodeWord 0b1111111101100101 = .instr (.loadRegs 15) := by decide
/-- Rule R100, one word of each undefined family. -/
theorem test_decode_undefined :
    decodeWord 0x0123 = .undefined .family0 ∧ decodeWord 0x5121 = .undefined .family5 ∧
    decodeWord 0x8128 = .undefined .family8 ∧ decodeWord 0x9125 = .undefined .family9 ∧
    decodeWord 0xE29F = .undefined .familyE ∧ decodeWord 0xF175 = .undefined .familyF := by decide
/-- Rule R62: big-endian, and one byte is no word. -/
theorem test_decodeBytes :
    decodeBytes [0x60, 0x05, 0x70] = (.instr (.ldImm 0 5), [0x70]) ∧ decodeBytes [0x60] = (.undefined .truncated, [0x60]) := by
  decide
theorem test_decodeTableWord :
    decodeTableWord 16 0x6005 = some (.ldImm 0 5) ∧ decodeTableWord 16 0x5121 = none := by decide

/-! ### Steps -/

/-- T40.1, and rule R128: the pc as for any instruction. -/
theorem test_undefined_word_reported :
    (after 0x0000 State.reset).pc = 0x202 ∧ (after 0x0000 State.reset).out = [.diag ⟨.decodeError, 0x200, 0⟩] ∧
    (after 0x0000 State.reset).run = .running := by decide
/-- T40.5. -/
theorem test_fetch_past_memory :
    (nextOf (step (atSlot { State.reset with pc := 0x1000 }))).map (fun t => (t.pc, t.run, t.fault)) =
      some (0x1000, .halted, some ⟨.fetchOutOfBounds, 0x1000, 0x1000⟩) := by decide
/-- T40.6. -/
theorem test_fetch_last_word : (after 0x6A55 { State.reset with pc := 0xFFE }).pc = 0x1000 ∧
    (after 0x6A55 { State.reset with pc := 0xFFE }).v = regs [(10, 0x55)] := by decide
/-- T40.7: the font is fetched as code. -/
theorem test_fetch_font : (nextOf (step (atSlot { State.reset with pc := 0 }))).map (·.out) =
    some [.diag ⟨.decodeError, 0, 0xF090⟩] := by decide

/-- T41.1. -/
theorem test_cls : (after 0x00E0 { State.reset with fb := Framebuffer.clear.flip 63 31 }).fb.pixel 63 31 = false ∧
    (after 0x00E0 State.reset).out = [.displayClear] := by decide
/-- T41.2. -/
theorem test_ret :
    let s := after 0x00EE { State.reset with sp := 2, stack := (State.reset.stack.set 0 0x202).set 1 0x306, pc := 0x400 }
    s.pc = 0x306 ∧ s.sp = 1 ∧ s.stack.get 1 = 0x306 := by decide
/-- T41.3. -/
theorem test_ret_underflow : (after 0x00EE State.reset).pc = 0x200 ∧
    (after 0x00EE State.reset).fault = some ⟨.stackUnderflow, 0x200, 0⟩ := by decide
/-- T41.4. -/
theorem test_jp : (after 0x1ABC State.reset).pc = 0xABC := by decide
/-- T41.5. -/
theorem test_jp_odd : (after 0x1ABD State.reset).fault = some ⟨.misalignedTarget, 0x200, 0xABD⟩ := by decide
/-- T41.9. -/
theorem test_call_last_entry :
    let s := after 0x2300 { State.reset with sp := 15, pc := 0xFFE }
    s.pc = 0x300 ∧ s.sp = 16 ∧ s.stack.get 15 = 0x1000 ∧ s.run = .running := by decide
/-- T41.11: the odd target is found before the full stack. -/
theorem test_call_odd_and_full :
    (after 0x2301 { State.reset with sp := 16 }).fault = some ⟨.misalignedTarget, 0x200, 0x301⟩ ∧
    (after 0x2300 { State.reset with sp := 16 }).fault = some ⟨.stackOverflow, 0x200, 0x300⟩ := by decide

/-- T42.1 and T42.2. -/
theorem test_seImm :
    (after 0x3A42 (withRegs [(10, 0x42)])).pc = 0x204 ∧ (after 0x3A42 (withRegs [(10, 0x43)])).pc = 0x202 := by decide
/-- T42.3 and T42.4. -/
theorem test_sneImm :
    (after 0x4A42 (withRegs [(10, 0x42)])).pc = 0x202 ∧ (after 0x4A42 (withRegs [(10, 0x43)])).pc = 0x204 := by decide
/-- T42.5 and T42.6. -/
theorem test_seReg : (after 0x5120 (withRegs [(1, 7), (2, 7)])).pc = 0x204 ∧
    (after 0x5120 (withRegs [(1, 7), (2, 8)])).pc = 0x202 := by decide
/-- T42.8 and T42.9. -/
theorem test_sneReg : (after 0x9120 (withRegs [(1, 7), (2, 7)])).pc = 0x202 ∧
    (after 0x9120 (withRegs [(1, 7), (2, 8)])).pc = 0x204 := by decide
/-- T42.13. -/
theorem test_skip_past_end : (after 0x3000 { State.reset with pc := 0xFFE }).pc = 0x1002 := by decide

/-- T43.2. -/
theorem test_ldImm : (after 0x6FFF State.reset).v = regs [(15, 0xFF)] := by decide
/-- T43.5 and T43.7: no flag, and VF as any register. -/
theorem test_addImm : (after 0x70FF (withRegs [(0, 1), (15, 1)])).v = regs [(15, 1)] ∧
    (after 0x7F01 (withRegs [(15, 0xFF)])).v = regs [] := by decide

/-- T44.1. -/
theorem test_ldReg : (after 0x8120 (withRegs [(1, 0x11), (2, 0x22), (15, 0x55)])).v =
    regs [(1, 0x22), (2, 0x22), (15, 0x55)] := by decide
/-- T44.2. -/
theorem test_orReg : (after 0x8121 (withRegs [(1, 0xF0), (2, 0x0F), (15, 0x55)])).v =
    regs [(1, 0xFF), (2, 0x0F), (15, 0x55)] := by decide
/-- T44.3. -/
theorem test_andReg : (after 0x8122 (withRegs [(1, 0xF3), (2, 0x3F), (15, 0x55)])).v =
    regs [(1, 0x33), (2, 0x3F), (15, 0x55)] := by decide
/-- T44.4. -/
theorem test_xorReg : (after 0x8123 (withRegs [(1, 0xFF), (2, 0x0F), (15, 0x55)])).v =
    regs [(1, 0xF0), (2, 0x0F), (15, 0x55)] := by decide
/-- T44.6. -/
theorem test_addReg_carry : (after 0x8124 (withRegs [(1, 0xC8), (2, 0x64)])).v =
    regs [(1, 0x2C), (2, 0x64), (15, 1)] := by decide
/-- T44.12 and T44.13: x = 15 and y = 15. -/
theorem test_addReg_vf : (after 0x8F14 (withRegs [(15, 0xF0), (1, 0x20)])).v = regs [(15, 1), (1, 0x20)] ∧
    (after 0x81F4 (withRegs [(1, 0x10), (15, 5)])).v = regs [(1, 0x15)] := by decide
/-- T44.14 and T44.16. -/
theorem test_subReg : (after 0x8125 (withRegs [(1, 0x0A), (2, 0x0C)])).v = regs [(1, 0xFE), (2, 0x0C)] ∧
    (after 0x8125 (withRegs [(1, 0x33), (2, 0x33)])).v = regs [(2, 0x33), (15, 1)] := by decide
/-- T44.19. -/
theorem test_subReg_vf : (after 0x8F15 (withRegs [(15, 5), (1, 3)])).v = regs [(15, 1), (1, 3)] := by decide
/-- T44.20 and T44.21. -/
theorem test_subnReg : (after 0x8127 (withRegs [(1, 0x0A), (2, 0x0C)])).v = regs [(1, 2), (2, 0x0C), (15, 1)] ∧
    (after 0x8127 (withRegs [(1, 0x0C), (2, 0x0A)])).v = regs [(1, 0xFE), (2, 0x0A)] := by decide
/-- T44.25 and T44.27: the bit shifted out, and y ignored. -/
theorem test_shr : (after 0x8126 (withRegs [(1, 0xFF)])).v = regs [(1, 0x7F), (15, 1)] ∧
    (after 0x81A6 (withRegs [(1, 3), (10, 0x80)])).v = regs [(1, 1), (10, 0x80), (15, 1)] := by decide
/-- T44.29 and T44.34. -/
theorem test_shl : (after 0x812E (withRegs [(1, 0x81)])).v = regs [(1, 2), (15, 1)] ∧
    (after 0x8FFE (withRegs [(15, 0x7F)])).v = regs [] := by decide

/-- T45.2. -/
theorem test_ldI : (after 0xAFFF State.reset).i = 0xFFF := by decide
/-- T45.6. -/
theorem test_jpV0 : (after 0xBFFF (withRegs [(0, 0xFF)])).pc = 0x10FE := by decide
/-- T45.4. -/
theorem test_jpV0_odd : (after 0xB300 (withRegs [(0, 0x11)])).fault = some ⟨.misalignedTarget, 0x200, 0x311⟩ := by decide
/-- T45.8, and one draw consumed. -/
theorem test_rnd : let s := after 0xC10F { withRegs [(1, 0xFF)] with rnd := [0xAB, 0xCD] }
    s.v = regs [(1, 0x0B)] ∧ s.rnd = [0xCD] ∧ s.draws = 1 := by decide

/-- T46.4 and T46.5: a set bit over a lit cell collides, a clear bit does not. -/
theorem test_drw_collision :
    let s := { State.reset with i := 0x300, fb := Framebuffer.clear.flip 0 0 }
    (after 0xD121 { s with mem := [(0x300, 0xC0)] }).v.get 15 = 1 ∧
    (after 0xD121 { s with mem := [(0x300, 0xC0)] }).fb.pixel 0 0 = false ∧
    (after 0xD121 { s with mem := [(0x300, 0x40)] }).v.get 15 = 0 ∧
    (after 0xD121 { s with mem := [(0x300, 0x40)] }).fb.pixel 0 0 = true := by decide
/-- T46.9 and T46.11: x = 15 draws at the old VF, and the columns wrap. -/
theorem test_drw_vf_and_wrap :
    (after 0xDF11 { withRegs [(15, 10), (1, 2)] with i := 0x300, mem := [(0x300, 0x80)] }).out =
      [.displayDraw 10 2 false] ∧
    (after 0xD121 { withRegs [(1, 60)] with i := 0x300, mem := [(0x300, 0x81)] }).out =
      [.displayDraw 60 0 false, .displayDraw 3 0 false] := by decide

/-- T47.1 and T47.2. -/
theorem test_skp : (after 0xE29E { withRegs [(2, 5)] with key := keysDown [5] }).pc = 0x204 ∧
    (after 0xE29E (withRegs [(2, 5)])).pc = 0x202 := by decide
/-- T47.3 and T47.4. -/
theorem test_sknp : (after 0xE2A1 (withRegs [(2, 5)])).pc = 0x204 ∧
    (after 0xE2A1 { withRegs [(2, 5)] with key := keysDown [5] }).pc = 0x202 := by decide
/-- T47.5 and T47.6: a number above 15 names no key. -/
theorem test_key_index : (after 0xE29E (withRegs [(2, 0x10)])).out = [.diag ⟨.keyIndexRange, 0x200, 0x10⟩] ∧
    (after 0xE2A1 (withRegs [(2, 0xFF)])).pc = 0x202 := by decide

/-- T48.1. -/
theorem test_ldVxDt : (after 0xF307 { State.reset with dt := 0x3C }).v = regs [(3, 0x3C)] := by decide
/-- T48.4. -/
theorem test_ldVxK : let s := after 0xF50A { withRegs [(5, 0xEE)] with newPress := true, lastKey := 7, key := keysDown [7] }
    s.run = .waitingForKey 5 ∧ s.newPress = false ∧ s.v = regs [(5, 0xEE)] ∧ s.pc = 0x202 := by decide
/-- T48.2. -/
theorem test_ldDtVx : (after 0xF315 (withRegs [(3, 0x3C)])).dt = 0x3C ∧ (after 0xF315 (withRegs [(3, 0x3C)])).st = 0 := by
  decide
/-- T48.3. -/
theorem test_ldStVx : (after 0xF318 (withRegs [(3, 2)])).st = 2 ∧ (after 0xF318 (withRegs [(3, 2)])).dt = 0 := by decide
/-- T48.9 and T48.8. -/
theorem test_addI : (after 0xF21E { withRegs [(2, 0xFF)] with i := 0xF00 }).i = 0xFFF ∧
    (after 0xF21E { withRegs [(2, 0xFF)] with i := 0xF01 }).i = 0xF01 ∧
    (after 0xF21E { withRegs [(2, 0xFF)] with i := 0xF01 }).out = [.diag ⟨.indexRange, 0x200, 0x1000⟩] := by decide
/-- T48.12 and T48.14. -/
theorem test_ldF : (after 0xF429 (withRegs [(4, 0x0F)])).i = 0x4B ∧ (after 0xF429 (withRegs [(4, 0xFF)])).i = 0x4FB := by decide
/-- T48.15. -/
theorem test_ldB : let s := after 0xF133 { withRegs [(1, 0xFE)] with i := 0x300 }
    s.mem.read 0x300 = 2 ∧ s.mem.read 0x301 = 5 ∧ s.mem.read 0x302 = 4 ∧ s.i = 0x300 := by decide
/-- T48.20 and T48.21. -/
theorem test_ldB_stops :
    (after 0xF133 { withRegs [(1, 0x7B)] with i := 0xFFE }).fault = some ⟨.memWriteOutOfBounds, 0x200, 0x1000⟩ ∧
    (after 0xF133 { withRegs [(1, 0x7B)] with i := 0x4F }).fault = some ⟨.fontWriteViolation, 0x200, 0x4F⟩ := by decide
/-- T48.23. -/
theorem test_storeRegs : let s := after 0xF255 { withRegs [(0, 0x11), (1, 0x22), (2, 0x33), (3, 0x44)] with i := 0x400 }
    s.mem.read 0x400 = 0x11 ∧ s.mem.read 0x401 = 0x22 ∧ s.mem.read 0x402 = 0x33 ∧ s.mem.read 0x403 = 0 := by decide
/-- T48.24 and T48.25. -/
theorem test_storeRegs_bounds : (after 0xF055 { withRegs [(0, 0x11)] with i := 0xFFF }).mem.read 0xFFF = 0x11 ∧
    (after 0xF155 { withRegs [(0, 0x11)] with i := 0xFFF }).fault = some ⟨.memWriteOutOfBounds, 0x200, 0x1000⟩ := by decide
/-- T48.30: V0 to V4 from the font. -/
theorem test_loadRegs : (after 0xF465 State.reset).v = regs [(0, 0xF0), (1, 0x90), (2, 0x90), (3, 0x90), (4, 0xF0)] := by decide
/-- T48.31: out of bounds no register is loaded. -/
theorem test_loadRegs_bounds : (after 0xF165 { withRegs [(0, 1), (1, 2)] with i := 0xFFF }).v = regs [(0, 1), (1, 2)] ∧
    (after 0xF165 { withRegs [(0, 1), (1, 2)] with i := 0xFFF }).out = [.diag ⟨.memReadOutOfBounds, 0x200, 0x1000⟩] := by decide

/-! ### The frame -/

/-- F1.4 and F1.1, one tick. -/
theorem test_tick : (timerTick { State.reset with dt := 255, st := 255 }).dt = 254 ∧
    (timerTick { State.reset with dt := 1 }).dt = 0 ∧ (timerTick State.reset).st = 0 := by decide
/-- F1.3: Resume before the tick. -/
theorem test_audio : (audioGate { State.reset with st := 1 }).audioOn = true ∧
    (audioGate { State.reset with st := 1 }).out = [.audioResume] ∧ (audioGate State.reset).out = [.audioPause] := by decide
/-- F2.1 and F2.5. -/
theorem test_poll_last_key : (poll [.keyDown 3, .keyDown 3] State.reset).lastKey = 3 ∧
    (poll [.keyDown 2, .keyDown 1, .keyUp 2] State.reset).key = keysDown [1] ∧
    (poll [.keyDown 2, .keyDown 1, .keyUp 2] State.reset).lastKey = 1 := by decide
/-- F2.2 and F2.4. -/
theorem test_poll_new_press : (poll [.keyDown 3, .keyUp 3] State.reset).newPress = true ∧
    (poll [.keyDown 3, .keyUp 3] State.reset).key = keysDown [] ∧ (poll [.keyUp 5] State.reset).newPress = false := by decide
/-- F5, its second frame: a slot completes the wait. -/
theorem test_wait_completes :
    (nextOf (step (atSlot { State.reset with run := .waitingForKey 3, newPress := true, lastKey := 11 }))).map
      (fun t => (t.v.get 3, t.run, t.newPress, t.pc)) = some (0x0B, .running, false, 0x200) := by decide
/-- F3: a quit stops the loop out of a key wait. -/
theorem test_quit_while_waiting :
    (nextOf (step { State.reset with run := .waitingForKey 3, quitPending := true, phase := .endFrame })).map (·.run) =
      some .stopped := by decide
/-- The first step after reset is the POLL, and the second is the first slot. -/
theorem test_reset_polls : (nextOf (step { State.reset with events := [[]] })).map (·.phase) = some (.batch 0) := by decide

/-! ### Witnesses: the hypotheses of each statement can be met -/

theorem witness_EncodeOfDecodeIsTheWord : decodeWord 0xFF65 = .instr (.loadRegs 15) := by decide
theorem witness_DecoderFollowsTheOpcodeMap :
    decodeWord 0x00E0 = .instr .cls ∧ (⟨0x00E0, 0xFFFF⟩ : Row) ∈ opcodeMap ∧ Row.selects ⟨0x00E0, 0xFFFF⟩ 0x00E0 = true := by
  decide
theorem witness_StepRunsTheDecodedInstruction :
    let s := atSlot { State.reset with pc := 0xFFE, mem := [(0xFFE, 0x6A), (0xFFF, 0x55)] }
    s.run = .running ∧ s.phase = .batch 0 ∧ s.pc.toNat ≤ 0xFFE ∧
      (decodeBytes [s.mem.read s.pc.toNat, s.mem.read (s.pc.toNat + 1)]).1 = .instr (.ldImm 10 0x55) := by decide
theorem witness_UndefinedWordIsReported :
    let s := atSlot { State.reset with pc := 0xFFE }
    s.run = .running ∧ s.phase = .batch 0 ∧ s.pc.toNat ≤ 0xFFE ∧
      decodeWord (s.mem.readWord s.pc.toNat) = .undefined .family0 := by decide
theorem witness_FetchPastMemoryHalts :
    let s := atSlot { State.reset with pc := 0x1000 }
    s.run = .running ∧ s.phase = .batch 0 ∧ 0xFFE < s.pc.toNat := by decide
theorem witness_EveryInstructionCompletesReportsOrRaises :
    State.reset.run = .running ∧ (∃ t, exec .cls State.reset = .next t ∧ t.run ≠ .halted) ∧
      exec (.skp 0) (withRegs [(0, 16)]) = .next (reportedBy .keyIndexRange 16 (withRegs [(0, 16)])) ∧
      exec .ret State.reset = .next (haltedBy .stackUnderflow 0 State.reset) :=
  ⟨rfl, ⟨_, rfl, by decide⟩, rfl, rfl⟩
theorem witness_PcAfterEachInstruction :
    State.reset.run = .running ∧ (∃ t, exec (.jp 0xFFE) State.reset = .next t ∧ t.run ≠ .halted) ∧
      ∃ t, exec (.jp 0xFFF) State.reset = .next t ∧ t.run = .halted :=
  ⟨rfl, ⟨_, rfl, by decide⟩, _, rfl, by decide⟩
theorem witness_RegistersWrittenAsTheTableSays :
    ∃ t, exec (.loadRegs 14) State.reset = .next t ∧ writesReg (.loadRegs 14) 15 = false := ⟨_, rfl, by decide⟩
theorem witness_ElementsWrittenOnlyByTheirInstructions :
    ∃ t, exec (.ldI 0xFFF) State.reset = .next t ∧ t.i ≠ State.reset.i := ⟨_, rfl, by decide⟩
theorem witness_ReturnPopsOrHalts :
    State.reset.sp.val = 0 ∧ 0 < ({ State.reset with sp := 1 } : State).sp.val ∧
      0 < ({ State.reset with sp := 16 } : State).sp.val := by decide
theorem witness_JumpToEvenTarget : (0xFFE : Addr12).toNat % 2 = 0 ∧ (0xFFF : Addr12).toNat % 2 = 1 := by decide
theorem witness_CallPushesAndJumps :
    (0xFFF : Addr12).toNat % 2 = 1 ∧ (0xFFE : Addr12).toNat % 2 = 0 ∧
      ({ State.reset with sp := 16 } : State).sp.val = 16 ∧ ({ State.reset with sp := 15 } : State).sp.val < 16 := by decide
theorem witness_ReturnUndoesCall :
    (0x300 : Addr12).toNat % 2 = 0 ∧ ({ State.reset with sp := 15 } : State).sp.val < 16 ∧
      ∃ t, exec (.call 0x300) { State.reset with sp := 15 } = .next t ∧ t.sp.val = 16 :=
  ⟨by decide, by decide, _, rfl, by decide⟩
theorem witness_KeySkips :
    ((withRegs [(2, 15)]).v.get 2).toNat = (15 : KeyNum).val ∧ 15 < ((withRegs [(2, 16)]).v.get 2).toNat := by decide
theorem witness_JumpWithOffset :
    (((withRegs [(0, 0xFF)]).v.get 0).toNat + (0xFFF : Addr12).toNat) % 2 = 0 ∧
      (((withRegs [(0, 0xFF)]).v.get 0).toNat + (0xFFE : Addr12).toNat) % 2 = 1 := by decide
theorem witness_RandomByteIsMasked :
    ({ State.reset with rnd := [0xAB, 0xCD] } : State).rnd = 0xAB :: [0xCD] ∧ State.reset.rnd = [] := by decide
theorem witness_DrawInvertsTheSpriteCells :
    let s := { State.reset with i := 0xFFF, mem := [(0xFFF, 0x80)], fb := Framebuffer.clear.flip 0 0 }
    s.i.toNat + (1 : Nibble).toNat - 1 ≤ 0xFFF ∧ (0 : Nibble).toNat = 0 ∧
      spriteSets s.mem s.i.toNat (s.v.get 0) (s.v.get 0) 1 0 0 ∧ s.fb.pixel 0 0 = true :=
  ⟨by decide, by decide, ⟨0, by decide, 0, by decide, by decide, by decide, by decide⟩, by decide⟩
theorem witness_DrawEventsInScanOrder :
    let s := { State.reset with i := 0xFFF, mem := [(0xFFF, 0xC0)] }
    s.i.toNat + (1 : Nibble).toNat - 1 ≤ 0xFFF ∧
      spriteCells s.mem s.i.toNat (s.v.get 0) (s.v.get 0) 1 = [(0, 0), (1, 0)] := by decide
theorem witness_DrawPastMemoryIsReported :
    0 < (2 : Nibble).toNat ∧ 0xFFF < ({ State.reset with i := 0xFFF } : State).i.toNat + (2 : Nibble).toNat - 1 := by decide
theorem witness_DrawTwiceRestoresTheDisplay :
    let s := { State.reset with i := 0xFFF, mem := [(0xFFF, 0x80)] }
    s.i.toNat + (1 : Nibble).toNat - 1 ≤ 0xFFF ∧
      (∃ t, exec (.drw 0 1 1) s = .next t ∧ t.v.get 0 = s.v.get 0 ∧ t.v.get 1 = s.v.get 1) ∧
      spriteSets s.mem s.i.toNat (s.v.get 0) (s.v.get 1) 1 0 0 ∧ s.fb.pixel 0 0 = false :=
  ⟨by decide, ⟨_, rfl, by decide, by decide⟩, ⟨0, by decide, 0, by decide, by decide, by decide, by decide⟩, by decide⟩
theorem witness_AddToIndex :
    let s := { withRegs [(2, 0xFF)] with i := 0xF00 }
    let s' := { withRegs [(2, 0xFF)] with i := 0xF01 }
    s.i.toNat + (s.v.get 2).toNat ≤ 0xFFF ∧ 0xFFF < s'.i.toNat + (s'.v.get 2).toNat := by decide
theorem witness_DecimalDigitsStored :
    ({ State.reset with i := 0x04F } : State).i.toNat ≤ 0x04F ∧ 0xFFF < ({ State.reset with i := 0xFFE } : State).i.toNat + 2 ∧
      0x050 ≤ ({ State.reset with i := 0x050 } : State).i.toNat ∧
      ({ State.reset with i := 0xFFD } : State).i.toNat + 2 ≤ 0xFFF := by decide
theorem witness_RegistersStored :
    ({ State.reset with i := 0x04F } : State).i.toNat ≤ 0x04F ∧
      0xFFF < ({ State.reset with i := 0xFF1 } : State).i.toNat + (15 : RegNum).val ∧
      0x050 ≤ ({ State.reset with i := 0x050 } : State).i.toNat ∧
      ({ State.reset with i := 0xFF0 } : State).i.toNat + (15 : RegNum).val ≤ 0xFFF := by decide
theorem witness_RegistersLoaded :
    ({ State.reset with i := 0xFF0 } : State).i.toNat + (15 : RegNum).val ≤ 0xFFF ∧
      0xFFF < ({ State.reset with i := 0xFF1 } : State).i.toNat + (15 : RegNum).val := by decide
theorem witness_LoadBringsBackWhatStoreSaved :
    let s := { withRegs [(15, 0xAF)] with i := 0xFF0 }
    ∃ t, exec (.storeRegs 15) s = .next t ∧ t.run ≠ .halted ∧ { State.reset with mem := t.mem, i := 0xFF0 }.i = s.i :=
  ⟨_, rfl, by decide, rfl⟩
/-- A slot at 0xFFE, the last fetchable address, with the word `6A55` just stored there. -/
theorem witness_StoreIsSeenByTheNextFetch :
    let s := { withRegs [(14, 0x6A), (15, 0x55)] with i := 0xFF0 }
    (14 : RegNum).val + 1 < 16 ∧ (14 : RegNum).val + 1 ≤ (15 : RegNum).val ∧
      decodeWord (s.v.get 14 ++ s.v.get 15) = .instr (.ldImm 10 0x55) ∧
      ∃ t, exec (.storeRegs 15) s = .next t ∧ t.run ≠ .halted ∧
        let u := atSlot { State.reset with mem := t.mem, pc := 0xFFE }
        u.mem = t.mem ∧ u.pc.toNat = s.i.toNat + (14 : RegNum).val ∧ u.run = .running ∧ u.phase = .batch 0 :=
  ⟨by decide, by decide, by decide, _, rfl, by decide, rfl, rfl, rfl, rfl⟩
theorem witness_KeyWaitSlot :
    let s := { State.reset with run := .waitingForKey 15, newPress := true, lastKey := 15, phase := .batch 7 }
    let s' := { State.reset with run := .waitingForKey 0, phase := .batch 0 }
    s.run = .waitingForKey 15 ∧ s.phase = .batch 7 ∧ s.newPress = true ∧
      s'.run = .waitingForKey 0 ∧ s'.phase = .batch 0 ∧ s'.newPress = false := by decide
/-- The first slot and the last. -/
theorem witness_WaitIdlesToTheEndOfTheBatch :
    let s := { State.reset with run := .waitingForKey 3, phase := .batch 0 }
    let s' := { State.reset with run := .waitingForKey 3, phase := .batch 7 }
    s.run = .waitingForKey 3 ∧ s.newPress = false ∧ s.phase = .batch 0 ∧ 0 < s.slotsPerFrame ∧ 0 + 7 < s.slotsPerFrame ∧
      s'.phase = .batch 7 ∧ 7 < s'.slotsPerFrame ∧ 7 + 0 < s'.slotsPerFrame := by decide
theorem witness_PollAppliesTheEventsInOrder :
    let evs : List HostEvent := [.keyUp 2, .keyDown 3, .quit, .keyDown 3]
    evs = [.keyUp 2] ++ .keyDown 3 :: [.quit, .keyDown 3] ∧ (poll [.keyUp 2] State.reset).key.get 3 = false ∧
      (poll ([.keyUp 2] ++ .keyDown 3 :: [.quit]) State.reset).key.get 3 = true ∧ .quit ∈ evs := by decide
/-- A state for each clause; a timer of 255 and one of 0 at TICK. -/
theorem witness_PhasesInOrder :
    let poll := { State.reset with events := [[.quit], []] }
    let audio := { State.reset with phase := .audio, st := 1 }
    let tick := { State.reset with phase := .tick, dt := 255 }
    let present := { State.reset with phase := .present }
    let sleep := { State.reset with phase := .sleep }
    let endFrame := { State.reset with phase := .endFrame, quitPending := true }
    (poll.FramesRun ∧ audio.FramesRun ∧ tick.FramesRun ∧ present.FramesRun ∧ sleep.FramesRun ∧ endFrame.FramesRun) ∧
      State.reset.phase = .poll ∧ State.reset.events = [] ∧ poll.phase = .poll ∧ poll.events = [.quit] :: [[]] ∧
      audio.phase = .audio ∧ 0 < audio.st.toNat ∧ { audio with st := 0 }.st.toNat = 0 ∧
      tick.phase = .tick ∧ tick.dt.toNat = 255 ∧ tick.st.toNat = 0 ∧ present.phase = .present ∧ sleep.phase = .sleep ∧
      endFrame.phase = .endFrame ∧ endFrame.quitPending = true ∧ { endFrame with quitPending := false }.quitPending = false :=
  ⟨⟨.inl rfl, .inl rfl, .inl rfl, .inl rfl, .inl rfl, .inl rfl⟩, by decide⟩
theorem witness_TickCountsDownClamped :
    ({ State.reset with run := .waitingForKey 0, phase := .tick } : State).FramesRun ∧
      ({ State.reset with phase := .tick } : State).phase = .tick := ⟨.inr ⟨0, rfl⟩, rfl⟩
theorem witness_StepStopsExactlyInTheTerminalModes :
    ({ State.reset with run := .halted } : State).run = .halted ∧ ({ State.reset with run := .stopped } : State).run = .stopped ∧
      ({ State.reset with run := .loadFailed } : State).run = .loadFailed ∧ State.reset.FramesRun :=
  ⟨rfl, rfl, rfl, .inl rfl⟩
theorem witness_FatalErrorEndsEverything :
    (atSlot { State.reset with pc := 0x1000 }).FramesRun ∧
      ∃ t, step (atSlot { State.reset with pc := 0x1000 }) = .next t ∧ t.run = .halted := ⟨.inl rfl, _, rfl, by decide⟩

/-- The state after reset with the image `60 01 00 EE` of vector F4, and one list of events. -/
def haltsInSlot1 : State :=
  { State.reset with mem := [(0x200, 0x60), (0x201, 1), (0x203, 0xEE)], events := [[.quit]], dt := 5, st := 5 }

/-- The state after reset with the self-jump `12 00` of vector F1, and one list of events. -/
def loopsOnItself : State := { State.reset with mem := [(0x200, 0x12)], events := [[]], dt := 3, st := 2 }

/-- Vector F1.5, its first frame. -/
theorem witness_StepsOfAFrameAreTheFrameFunction :
    loopsOnItself.FramesRun ∧ loopsOnItself.phase = .poll ∧ 0 < loopsOnItself.slotsPerFrame ∧
      ∃ t, frame (frameEvents loopsOnItself) loopsOnItself = .next t ∧ t.run ≠ .halted ∧ t.dt = 2 ∧ t.st = 1 ∧
        t.out = [.audioResume, .present] :=
  ⟨.inl rfl, rfl, by decide, _, rfl, by decide⟩
/-- Vector F4. -/
theorem witness_HaltingFrameIsAbandoned :
    haltsInSlot1.FramesRun ∧ haltsInSlot1.phase = .poll ∧ 0 < haltsInSlot1.slotsPerFrame ∧
      ∃ t, frame (frameEvents haltsInSlot1) haltsInSlot1 = .next t ∧ t.run = .halted ∧ t.dt = 5 ∧ t.pc = 0x202 ∧
        t.quitPending = true ∧ t.out = [.diag ⟨.stackUnderflow, 0x202, 0⟩] :=
  ⟨.inl rfl, rfl, by decide, _, rfl, by decide⟩
theorem witness_ResetCopiesTheImage :
    (List.replicate 3584 (0x60 : Byte)).length ≤ 3584 ∧ ([] : List Byte).length ≤ 3584 := by
  rw [List.length_replicate]; decide
theorem witness_ResetState : (List.replicate 3584 (0x60 : Byte)).length ≤ 3584 := by rw [List.length_replicate]
theorem witness_TooLargeImageFailsToLoad : 3584 < (List.replicate 3585 (0x60 : Byte)).length := by
  rw [List.length_replicate]; decide
theorem witness_ResetEstablishesTheInvariants : 8 ≤ Config.minSlots ∧ Config.maxSlots ≤ 16 := by decide

/-- A state with a stored byte, a stack entry and a wait, for the invariants. -/
def ordinary : State :=
  { State.reset with
    mem := [(0x300, 0x7F)], i := 0xFFF, sp := 1, stack := State.reset.stack.set 0 0x1000, run := .waitingForKey 2
    phase := .batch 7 }

theorem ordinary_stack_valid (j : Nat) (h : j < 16) (hj : j < ordinary.sp.val) :
    ordinary.stack[j].toNat % 2 = 0 ∧ ordinary.stack[j].toNat ≤ 0x1000 := by
  obtain rfl : j = 0 := Nat.lt_one_iff.1 hj
  exact (by decide : (ordinary.stack.get 0).toNat % 2 = 0 ∧ (ordinary.stack.get 0).toNat ≤ 0x1000)
theorem witness_EveryStepKeepsTheInvariants : ordinary.Inv ∧ ∃ t, step ordinary = .next t :=
  ⟨{ pc_even := by decide, pc_le := by decide, i_le := by decide, stack_valid := ordinary_stack_valid
     mem_canonical := by decide, mem_inSpace := by decide, fault_iff := by decide
     slots_min := by decide, slots_max := by decide
     slot_lt := fun k hk => by
       have : k = 7 := (Phase.batch.inj hk).symm
       rw [this]; decide },
   _, rfl⟩
theorem witness_NoStepChangesTheFont : (∃ t, step ordinary = .next t) ∧ 0x04F < 0x050 := ⟨⟨_, rfl⟩, by decide⟩

end Sys2Proof.Tests
end

section
/-! PROOFS. The encoding family (rules R94 to R96). A word that decodes is its instruction's own encoding, which the
instruction's row selects; a row that selects a word fixes the family and the selector, so the word decodes; and no two rows
select one word. -/

namespace Sys2Proof

/-! ### The round trips -/

/-- Every instruction's word decodes to it: the formats' fields read back (rule R91). -/
@[simp] theorem decodeWord_encode (i : Instr) : decodeWord (encode i) = .instr i := by
  cases i <;> simp [encode, decodeWord, decodeFamily8, decodeFamilyF]
  case cls => rfl
  case ret => rfl

theorem formatNNN_of_family {op : Word} {f : Nibble} (h : fieldFamily op = f) : formatNNN f (fieldNNN op) = op :=
  h ▸ formatNNN_fields op

theorem formatXKK_of_fields {op : Word} {f : Nibble} {k : Byte} (hf : fieldFamily op = f) (hk : fieldKK op = k) :
    formatXKK f (regOf (fieldX op)) k = op := by
  subst hf hk
  exact formatXKK_fields op

theorem formatXYN_of_fields {op : Word} {f n : Nibble} (hf : fieldFamily op = f) (hn : fieldN op = n) :
    formatXYN f (regOf (fieldX op)) (regOf (fieldY op)) n = op := by
  subst hf hn
  exact formatXYN_fields op

theorem encode_of_decodeFamily8 {x y : RegNum} {n : Nibble} {i : Instr} (h : decodeFamily8 x y n = .instr i) :
    encode i = formatXYN 0x8 x y n := by
  unfold decodeFamily8 at h
  split at h <;> cases h <;> exact congrArg (formatXYN 0x8 x y) (BitVec.eq_of_toNat_eq (Eq.symm ‹n.toNat = _›))

theorem encode_of_decodeFamilyF {x : RegNum} {k : Byte} {i : Instr} (h : decodeFamilyF x k = .instr i) :
    encode i = formatXKK 0xF x k := by
  unfold decodeFamilyF at h
  split at h <;> cases h <;> exact congrArg (formatXKK 0xF x) (BitVec.eq_of_toNat_eq (Eq.symm ‹k.toNat = _›))

/-- No bit of a word is dropped (the shifts' `y` field included): a word that decodes is its instruction's own encoding. -/
theorem encode_of_decodeWord {op : Word} {i : Instr} (h : decodeWord op = .instr i) : encode i = op := by
  have family {f : Nibble} (hf : (fieldFamily op).toNat = f.toNat) : fieldFamily op = f := BitVec.eq_of_toNat_eq hf
  unfold decodeWord at h
  split at h
  case h_1 =>
    split_ifs at h with hcls hret <;> cases h
    · exact hcls.symm
    · exact hret.symm
  case h_2 hf | h_3 hf | h_11 hf | h_12 hf => cases h; exact formatNNN_of_family (family hf)
  case h_4 hf | h_5 hf | h_7 hf | h_8 hf | h_13 hf => cases h; exact formatXKK_of_fields (family hf) rfl
  case h_6 hf | h_10 hf =>
    split_ifs at h with hn
    cases h
    exact formatXYN_of_fields (family hf) hn
  case h_9 hf => exact (encode_of_decodeFamily8 h).trans (formatXYN_of_fields (family hf) rfl)
  case h_14 hf => cases h; exact formatXYN_of_fields (family hf) rfl
  case h_15 hf =>
    split_ifs at h with hskp hsknp <;> cases h
    · exact formatXKK_of_fields (family hf) hskp
    · exact formatXKK_of_fields (family hf) hsknp
  case h_16 =>
    have hf : (fieldFamily op).toNat = 0xF := by have := (fieldFamily op).isLt; grind
    exact (encode_of_decodeFamilyF h).trans (formatXKK_of_fields (family hf) rfl)

/-! ### The rows of the opcode map -/

theorem Row.selects_iff {r : Row} {w : Word} : r.selects w = true ↔ w &&& r.mask = r.pattern := beq_iff_eq

theorem rowOf_mem_opcodeMap (i : Instr) : rowOf i ∈ opcodeMap := by
  cases i <;> simp [opcodeMap, rowOf]

/-- A row selects the words of its own instructions: its mask drops exactly the operand fields. -/
theorem rowOf_selects_encode (i : Instr) : (rowOf i).selects (encode i) = true := by
  rw [Row.selects_iff]
  cases i
  case cls | ret => rfl
  case jp | call | ldI | jpV0 => exact formatNNN_and_family ..
  case seImm | sneImm | ldImm | addImm | rnd => exact formatXKK_and_family ..
  case drw => exact formatXYN_and_family ..
  case seReg | ldReg | orReg | andReg | xorReg | addReg | subReg | shr | subnReg | shl | sneReg =>
    exact formatXYN_and_dropXY ..
  case skp | sknp | ldVxDt | ldVxK | ldDtVx | ldStVx | addI | ldF | ldB | storeRegs | loadRegs =>
    exact formatXKK_and_dropX ..

/-- Two rows that select one word agree wherever both look. -/
theorem Row.agree_of_selects {r r' : Row} {w : Word} (h : r.selects w = true) (h' : r'.selects w = true) :
    r.pattern &&& r'.mask = r'.pattern &&& r.mask := by
  rw [← Row.selects_iff.1 h, ← Row.selects_iff.1 h', BitVec.and_assoc, BitVec.and_assoc, BitVec.and_comm r.mask]

/-- Any two different rows differ in a bit that both masks keep. -/
theorem Row.eq_of_agree :
    ∀ r ∈ opcodeMap, ∀ r' ∈ opcodeMap, r.pattern &&& r'.mask = r'.pattern &&& r.mask → r = r' := by decide

/-- The rows are pairwise disjoint (rule R94). -/
theorem Row.eq_of_selects {r r' : Row} (hr : r ∈ opcodeMap) (hr' : r' ∈ opcodeMap) {w : Word}
    (h : r.selects w = true) (h' : r'.selects w = true) : r = r' :=
  Row.eq_of_agree r hr r' hr' (Row.agree_of_selects h h')

/-- A word has the pattern's bits in every field the row's mask keeps whole. -/
theorem Row.field_of_selects {r : Row} {op : Word} (h : r.selects op = true) {i n : Nat}
    (hm : r.mask.extractLsb' i n = BitVec.allOnes n) : op.extractLsb' i n = r.pattern.extractLsb' i n := by
  rw [← Row.selects_iff.1 h, BitVec.extractLsb'_and, hm, BitVec.and_allOnes]

/-- A word that an instruction's row selects decodes: the row fixes the family and the family's selector, which are all the
decoder looks at. -/
theorem decodes_of_rowOf_selects {j : Instr} {op : Word} (h : (rowOf j).selects op = true) :
    ∃ i, decodeWord op = .instr i := by
  cases j <;> dsimp only [rowOf] at h
  case cls | ret =>
    have hw := Row.field_of_selects (i := 0) (n := 16) h rfl
    rw [BitVec.extractLsb'_eq_self] at hw
    exact hw ▸ ⟨_, rfl⟩
  case jp | call | seImm | sneImm | ldImm | addImm | ldI | jpV0 | rnd | drw =>
    have hf : fieldFamily op = _ := Row.field_of_selects h rfl
    rw [decodeWord, hf]
    exact ⟨_, rfl⟩
  case seReg | ldReg | orReg | andReg | xorReg | addReg | subReg | shr | subnReg | shl | sneReg =>
    have hf : fieldFamily op = _ := Row.field_of_selects h rfl
    have hn : fieldN op = _ := Row.field_of_selects h rfl
    rw [decodeWord, hf, hn]
    exact ⟨_, rfl⟩
  case skp | sknp | ldVxDt | ldVxK | ldDtVx | ldStVx | addI | ldF | ldB | storeRegs | loadRegs =>
    have hf : fieldFamily op = _ := Row.field_of_selects h rfl
    have hk : fieldKK op = _ := Row.field_of_selects h rfl
    rw [decodeWord, hf, hk]
    exact ⟨_, rfl⟩

theorem exists_rowOf_of_mem_opcodeMap {r : Row} (h : r ∈ opcodeMap) : ∃ j, rowOf j = r := by
  simp only [opcodeMap, ← List.map_append] at h
  obtain ⟨j, -, hj⟩ := List.mem_map.1 h
  exact ⟨j, hj⟩

/-! ### The obligations -/

/-- Settles O4: the decoder's word is the instruction's encoding, which its row selects, and the rows are pairwise disjoint;
conversely the row that selects a word fixes all the decoder looks at. -/
theorem decoderFollowsTheOpcodeMap : Obligations.DecoderFollowsTheOpcodeMap := by
  intro op
  have selected {i : Instr} (h : decodeWord op = .instr i) : (rowOf i).selects op = true :=
    encode_of_decodeWord h ▸ rowOf_selects_encode i
  refine ⟨⟨fun ⟨i, h⟩ => ?_, fun h => ?_⟩, fun i h => ⟨selected h, fun r hr hsel => ?_⟩⟩
  · exact List.any_eq_true.2 ⟨rowOf i, rowOf_mem_opcodeMap i, selected h⟩
  · obtain ⟨r, hr, hsel⟩ := List.any_eq_true.1 h
    obtain ⟨j, rfl⟩ := exists_rowOf_of_mem_opcodeMap hr
    exact decodes_of_rowOf_selects hsel
  · exact Row.eq_of_selects hr (rowOf_mem_opcodeMap i) hsel (selected h)

/-- Settles O1: each word is the encoding of its instruction, which decoding gives back; the last is no instruction's. -/
theorem specWordsDecode : Obligations.SpecWordsDecode :=
  ⟨decodeWord_encode .cls, decodeWord_encode (.jp 0xABC), decodeWord_encode (.seImm 3 0x2A),
    decodeWord_encode (.subReg 1 2), decodeWord_encode (.drw 1 2 5), decodeWord_encode (.skp 2),
    decodeWord_encode (.storeRegs 2), rfl⟩

end Sys2Proof
end

section
/-! PROOFS. The execution cycle family (rules R120 to R130). A slot of a batch is one cycle followed by the frame's bookkeeping;
in mode Running, with PC inside the fetchable range, the cycle is the meaning of the word at PC: the instruction it decodes to,
or the reported DecodeError. -/

namespace Sys2Proof.Machine

/-! ### A slot as a cycle -/

/-- Rules R250 and R253: a slot is one cycle, then the frame's move. -/
theorem step_of_batch {s : State} {k : Nat} (h : s.FramesRun) (hk : s.phase = .batch k) :
    step s = andThen (cycle s) fun t => .next (afterSlot k t) := by
  rw [step_of_framesRun h, performPhase, hk]

/-- Rule R254, of a slot that has not raised. -/
theorem afterSlot_of_not_halted {k : Nat} {s : State} (h : s.run ≠ .halted) :
    afterSlot k s = { s with phase := if k + 1 < s.slotsPerFrame then .batch (k + 1) else .audio } :=
  if_neg h

/-! ### The cycle in mode Running -/

/-- Rule R120. -/
theorem cycle_of_running {s : State} (h : s.run = .running) : cycle s = instructionCycle s := by
  rw [cycle, h]

/-- Rule R121: the fetch bounds hold up to 0xFFE, the address of the last word. -/
theorem fetch_inBounds {s : State} (h : s.pc.toNat ≤ 0xFFE) : outOfBounds (s.pc.toNat + 1) = false :=
  (outOfBounds_eq_false _).2 (Nat.succ_le_succ h)

/-- Rules R122 and R123: a fetched word that decodes runs as its instruction. -/
theorem instructionCycle_of_instr {s : State} {i : Instr} (hpc : s.pc.toNat ≤ 0xFFE)
    (hd : decodeWord (fetchWord s) = .instr i) : instructionCycle s = exec i s := by
  simp [instructionCycle, fetch_inBounds hpc, hd]

/-- Rule R128: a fetched word that is no instruction is reported. -/
theorem instructionCycle_of_undefined {s : State} {r : Reject} (hpc : s.pc.toNat ≤ 0xFFE)
    (hd : decodeWord (fetchWord s) = .undefined r) :
    instructionCycle s = .next (reportedBy .decodeError (fetchWord s).toNat s) := by
  simp [instructionCycle, fetch_inBounds hpc, hd, report_eq]

/-- A report leaves RUN as it is (rule R284). -/
@[simp] theorem reportedBy_run (e : ErrorKind) (info : Nat) (s : State) : (reportedBy e info s).run = s.run := rfl

/-! ### The obligations -/

/-- Settles O6: the slot is a cycle, and the cycle is the instruction that the two bytes at PC decode to. -/
theorem stepRunsTheDecodedInstruction : Obligations.StepRunsTheDecodedInstruction := by
  intro s k i hrun hk hpc hd
  have hword : decodeWord (fetchWord s) = .instr i := hd
  have hcycle : cycle s = exec i s := (cycle_of_running hrun).trans (instructionCycle_of_instr hpc hword)
  rw [step_of_batch (.inl hrun) hk, hcycle]
  rfl

/-- Settles O7: the cycle is the reported DecodeError, which leaves the executor running, so the frame moves on. -/
theorem undefinedWordIsReported : Obligations.UndefinedWordIsReported := by
  refine ⟨rfl, fun s k r hrun hk hpc hd => ?_⟩
  have hcycle : cycle s = .next (reportedBy .decodeError (fetchWord s).toNat s) :=
    (cycle_of_running hrun).trans (instructionCycle_of_undefined hpc hd)
  have hgoes : (reportedBy .decodeError (fetchWord s).toNat s).run ≠ .halted := by simp [hrun]
  rw [step_of_batch (.inl hrun) hk, hcycle, andThen_next, afterSlot_of_not_halted hgoes]
  rfl

end Sys2Proof.Machine
end

section
/-! PROOFS. The clear, return, jump and call family (rules R140 to R145). -/

namespace Sys2Proof.Machine

/-- Rule R141. -/
theorem exec_cls_eq (s : State) :
    exec .cls s = .next { s with
      pc := s.pc + 2
      fb := Framebuffer.clear
      out := s.out ++ [.displayClear] } := rfl

/-! ### The obligations -/

/-- Settles O13: the framebuffer after the instruction is the cleared one, whose every cell is off. -/
theorem clearDisplay : Obligations.ClearDisplay := by
  intro s
  exact ⟨_, exec_cls_eq s, Framebuffer.pixel_clear, rfl⟩

end Sys2Proof.Machine
end

section
/-! PROOFS. The skip family (rules R150 to R154). Two bytes are equal exactly when their values are, so a skip taken on `==` or
`!=` of bytes is a skip on the numbers the rules compare. -/

namespace Sys2Proof.Machine

/-! ### A skip on the comparison of two bytes -/

/-- The condition of rules R151 and R153. -/
theorem skipIf_beq_eq (a b : Byte) (s : State) :
    skipIf (a == b) s = .next { s with pc := if a.toNat = b.toNat then s.pc + 4 else s.pc + 2 } := by
  simp only [skipIf_eq, beq_iff_eq, BitVec.toNat_inj]

/-- The condition of rules R152 and R154. -/
theorem skipIf_bne_eq (a b : Byte) (s : State) :
    skipIf (a != b) s = .next { s with pc := if a.toNat = b.toNat then s.pc + 2 else s.pc + 4 } := by
  simp only [skipIf_eq, bne_iff_ne, BitVec.toNat_inj, ne_eq, ite_not]

/-! ### The instructions -/

/-- Rule R151. -/
theorem exec_seImm_eq (x : RegNum) (kk : Byte) (s : State) :
    exec (.seImm x kk) s = skipIf (s.v.get x == kk) s := rfl

/-- Rule R152. -/
theorem exec_sneImm_eq (x : RegNum) (kk : Byte) (s : State) :
    exec (.sneImm x kk) s = skipIf (s.v.get x != kk) s := rfl

/-- Rule R153. -/
theorem exec_seReg_eq (x y : RegNum) (s : State) :
    exec (.seReg x y) s = skipIf (s.v.get x == s.v.get y) s := rfl

/-- Rule R154. -/
theorem exec_sneReg_eq (x y : RegNum) (s : State) :
    exec (.sneReg x y) s = skipIf (s.v.get x != s.v.get y) s := rfl

/-! ### The obligations -/

/-- Settles O18: each instruction is a skip on its own comparison, and a skip moves nothing but PC. -/
theorem immediateAndRegisterSkips : Obligations.ImmediateAndRegisterSkips := by
  intro x y kk s
  refine ⟨?seImm, ?sneImm, ?seReg, ?sneReg⟩
  case seImm => rw [exec_seImm_eq, skipIf_beq_eq]
  case sneImm => rw [exec_sneImm_eq, skipIf_bne_eq]
  case seReg => rw [exec_seReg_eq, skipIf_beq_eq]
  case sneReg => rw [exec_sneReg_eq, skipIf_bne_eq]

end Sys2Proof.Machine
end

section
/-! PROOFS. The load and add immediate family (rules R160 to R162), with the register load of rule R171. Each instruction is one
register written and the fetch advance. -/

namespace Sys2Proof.Machine

/-! ### One register written and the fetch advance -/

/-- Rules R126 and R129: an instruction that writes `V[x]` changes that register and PC. -/
theorem complete_writeV_eq (x : RegNum) (b : Byte) (s : State) :
    complete (writeV x b s) = .next { s with v := s.v.set x.val b, pc := s.pc + 2 } := rfl

/-! ### The instructions -/

/-- Rule R161. -/
theorem exec_ldImm_eq (x : RegNum) (kk : Byte) (s : State) :
    exec (.ldImm x kk) s = complete (writeV x kk s) := rfl

/-- Rule R171. -/
theorem exec_ldReg_eq (x y : RegNum) (s : State) :
    exec (.ldReg x y) s = complete (writeV x (s.v.get y) s) := rfl

/-- Rule R162. -/
theorem exec_addImm_eq (x : RegNum) (kk : Byte) (s : State) :
    exec (.addImm x kk) s = complete (writeV x (s.v.get x + kk) s) := rfl

/-! ### The obligations -/

/-- Settles O20: both instructions write one register, VF like any other, and a read after the write finds the new byte there
and the old bytes elsewhere. -/
theorem loadsOfARegister : Obligations.LoadsOfARegister := by
  intro x y kk s
  refine ⟨?ldImm, ?ldReg⟩
  case ldImm =>
    rw [exec_ldImm_eq, complete_writeV_eq]
    exact ⟨_, rfl, fun r => get_set s.v x r kk, rfl⟩
  case ldReg =>
    rw [exec_ldReg_eq, complete_writeV_eq]
    exact ⟨_, rfl, fun r => get_set s.v x r (s.v.get y), rfl⟩

/-- Settles O21: the byte sum, whose value is the sum modulo 256, is the only byte written. -/
theorem addImmediateWraps : Obligations.AddImmediateWraps := by
  intro x kk s
  rw [exec_addImm_eq, complete_writeV_eq]
  refine ⟨_, rfl, fun r => ?_, rfl⟩
  rw [get_set, apply_ite BitVec.toNat, BitVec.toNat_add]

end Sys2Proof.Machine
end

section
/-! PROOFS. The bitwise operations of the ALU family (rules R172 to R175). Each instruction is one register written with a byte
whose every bit is the operation on the operands' bits. -/

namespace Sys2Proof.Machine

/-! ### One register written, bit by bit -/

/-- Rules R14 and R129: an instruction that writes `V[x]` with a byte of known bits has those bits there, and every other register
unchanged. -/
theorem complete_writeV_bits {result : Byte} {bits : Nat → Bool} (h : ∀ b, result.getLsbD b = bits b) (x : RegNum)
    (s : State) :
    ∃ t, complete (writeV x result s) = .next t ∧ t = { s with v := t.v, pc := s.pc + 2 } ∧
      (∀ r, r ≠ x → t.v.get r = s.v.get r) ∧ ∀ b, (t.v.get x).getLsbD b = bits b := by
  refine ⟨_, complete_writeV_eq x result s, rfl, fun r hr => ?other, fun b => ?written⟩
  case other => rw [get_set, if_neg hr]
  case written => rw [get_set, if_pos rfl, h]

/-! ### The instructions -/

/-- Rule R172. -/
theorem exec_orReg_eq (x y : RegNum) (s : State) :
    exec (.orReg x y) s = complete (writeV x (s.v.get x ||| s.v.get y) s) := rfl

/-- Rule R173. -/
theorem exec_andReg_eq (x y : RegNum) (s : State) :
    exec (.andReg x y) s = complete (writeV x (s.v.get x &&& s.v.get y) s) := rfl

/-- Rule R174. -/
theorem exec_xorReg_eq (x y : RegNum) (s : State) :
    exec (.xorReg x y) s = complete (writeV x (s.v.get x ^^^ s.v.get y) s) := rfl

/-! ### The obligations -/

/-- Settles O22: each instruction writes `V[x]` alone, VF being written only as that register, and each bit of the written byte
is the operation on the operands' bits. -/
theorem bitwiseOperations : Obligations.BitwiseOperations := by
  intro x y s
  refine ⟨?orReg, ?andReg, ?xorReg⟩
  case orReg =>
    rw [exec_orReg_eq]
    exact complete_writeV_bits (fun _ => BitVec.getLsbD_or) x s
  case andReg =>
    rw [exec_andReg_eq]
    exact complete_writeV_bits (fun _ => BitVec.getLsbD_and) x s
  case xorReg =>
    rw [exec_xorReg_eq]
    exact complete_writeV_bits (fun _ => BitVec.getLsbD_xor) x s

end Sys2Proof.Machine
end

section
/-! PROOFS. The set index instruction (rule R191). The 12-bit address, widened to a word, becomes I, with no check on its value:
an address in the font region is a base like any other. -/

namespace Sys2Proof.Machine

/-- Rule R191. -/
theorem exec_ldI_eq (nnn : Addr12) (s : State) :
    exec (.ldI nnn) s = .next { s with i := addrWord nnn, pc := s.pc + 2 } := rfl

/-- Settles O26: I receives the widened address, whose value is `nnn`'s own, beside the fetch advance. -/
theorem setIndex : Obligations.SetIndex := by
  intro nnn s
  exact ⟨_, exec_ldI_eq nnn s, addrWord_toNat nnn, rfl⟩

end Sys2Proof.Machine
end

section
/-! PROOFS. The round trips of encoder and decoder (rules R90 to R94), and the undefined words family by family (rules R95 and
R100): the selector of each family, read as a number, is what the decoder splits on. -/

namespace Sys2Proof

/-! ### The fields of a word as numbers -/

theorem fieldFamily_toNat (op : Word) : (fieldFamily op).toNat = op.toNat / 4096 := by
  have := op.isLt
  simp only [fieldFamily, BitVec.extractLsb'_toNat, Nat.shiftRight_eq_div_pow]
  omega

theorem fieldN_toNat (op : Word) : (fieldN op).toNat = op.toNat % 16 := BitVec.extractLsb'_toNat 0 4 op

theorem fieldKK_toNat (op : Word) : (fieldKK op).toNat = op.toNat % 256 := BitVec.extractLsb'_toNat 0 8 op

/-! ### The families with a selector -/

theorem undefined_eq_iff {a r : Reject} : Decoded.undefined a = .undefined r ↔ r = a := by
  rw [Decoded.undefined.injEq, eq_comm]

/-- A selector that must have one value, as families 5 and 9 have it. -/
theorem ite_instr_eq_undefined {p : Prop} [Decidable p] (i : Instr) (d : Decoded) (r : Reject) :
    (if p then .instr i else d) = Decoded.undefined r ↔ d = .undefined r ∧ ¬ p := by
  by_cases h : p <;> simp [h]

/-- Rule R95: the seven selectors that family 8 leaves undefined. -/
theorem decodeFamily8_eq_undefined (x y : RegNum) (n : Nibble) (r : Reject) :
    decodeFamily8 x y n = .undefined r ↔ r = .family8 ∧ n.toNat ∈ [8, 9, 0xA, 0xB, 0xC, 0xD, 0xF] := by
  have := n.isLt
  unfold decodeFamily8
  split
  case h_10 =>
    have hn : n.toNat ∈ [8, 9, 0xA, 0xB, 0xC, 0xD, 0xF] := by simp only [List.mem_cons]; grind
    rw [undefined_eq_iff, and_iff_left hn]
  all_goals simp [*]

/-- Rule R95: family F is undefined under every low byte but its nine. -/
theorem decodeFamilyF_eq_undefined (x : RegNum) (k : Byte) (r : Reject) :
    decodeFamilyF x k = .undefined r ↔
      r = .familyF ∧ k.toNat ∉ [0x07, 0x0A, 0x15, 0x18, 0x1E, 0x29, 0x33, 0x55, 0x65] := by
  unfold decodeFamilyF
  split
  case h_10 =>
    have hk : k.toNat ∉ [0x07, 0x0A, 0x15, 0x18, 0x1E, 0x29, 0x33, 0x55, 0x65] := by simp_all
    rw [undefined_eq_iff, and_iff_left hk]
  all_goals simp [*]

/-! ### The obligations -/

/-- Settles O2: the formats' fields read back, and the two bytes of a word are the word. -/
theorem decodeOfEncodeIsTheInstruction : Obligations.DecodeOfEncodeIsTheInstruction := by
  intro i rest
  have hbytes : decodeBytes (encodeBytes i ++ rest) = (decodeWord (encode i), rest) := by
    simp [decodeBytes, encodeBytes, bytesOfWord]
  exact ⟨decodeWord_encode i, by rw [hbytes, decodeWord_encode]⟩

/-- Settles O3: a word that decodes is put together again from the fields the decoder read. -/
theorem encodeOfDecodeIsTheWord : Obligations.EncodeOfDecodeIsTheWord :=
  fun _ _ h => encode_of_decodeWord h

/-- Settles O5: the decoder splits on the family, and each family answers under its own name or not at all. -/
theorem undefinedWordsByFamily : Obligations.UndefinedWordsByFamily := by
  intro op r
  rw [← fieldFamily_toNat, ← fieldN_toNat, ← fieldKK_toNat]
  have hlt := (fieldFamily op).isLt
  unfold decodeWord
  split
  case h_1 hf | h_6 hf | h_10 hf | h_15 hf =>
    simp [hf, ite_instr_eq_undefined, BitVec.toNat_eq, eq_comm (b := r), and_comm, and_left_comm]
  case h_9 hf => simp [hf, decodeFamily8_eq_undefined]
  case h_16 =>
    have hf : (fieldFamily op).toNat = 15 := by grind
    simp [hf, decodeFamilyF_eq_undefined]
  all_goals simp [*]

end Sys2Proof
end

section
/-! PROOFS. What an instruction can do, once for all of them (rule R16): it completes, reports or raises, each as a relation with
one case per way. Every statement about all instructions is read off these cases. -/

namespace Sys2Proof.Machine

/-! ### The three outcomes -/

/-- The instruction completes on `s` and leaves `t` (rule R129): its effect, under the conditions in which it neither reports nor
raises. -/
inductive Completes (s : State) : Instr → State → Prop
  | cls : Completes s .cls (advancePc 2 (emit [.displayClear] { s with fb := Framebuffer.clear }))
  | ret (j : Fin 16) (h : j.val + 1 = s.sp.val) : Completes s .ret { s with pc := s.stack.get j, sp := j.castSucc }
  | jp (nnn : Addr12) (even : nnn.toNat % 2 = 0) : Completes s (.jp nnn) { s with pc := addrWord nnn }
  | call (nnn : Addr12) (even : nnn.toNat % 2 = 0) (room : s.sp.val < 16) :
    Completes s (.call nnn) { s with
      pc := addrWord nnn
      sp := ⟨s.sp.val + 1, Nat.succ_lt_succ room⟩
      stack := s.stack.set s.sp.val (s.pc + 2) }
  | seImm (x : RegNum) (kk : Byte) :
    Completes s (.seImm x kk) { s with pc := if (s.v.get x).toNat = kk.toNat then s.pc + 4 else s.pc + 2 }
  | sneImm (x : RegNum) (kk : Byte) :
    Completes s (.sneImm x kk) { s with pc := if (s.v.get x).toNat = kk.toNat then s.pc + 2 else s.pc + 4 }
  | seReg (x y : RegNum) :
    Completes s (.seReg x y) { s with pc := if (s.v.get x).toNat = (s.v.get y).toNat then s.pc + 4 else s.pc + 2 }
  | ldImm (x : RegNum) (kk : Byte) : Completes s (.ldImm x kk) (advancePc 2 (writeV x kk s))
  | addImm (x : RegNum) (kk : Byte) : Completes s (.addImm x kk) (advancePc 2 (writeV x (s.v.get x + kk) s))
  | ldReg (x y : RegNum) : Completes s (.ldReg x y) (advancePc 2 (writeV x (s.v.get y) s))
  | orReg (x y : RegNum) : Completes s (.orReg x y) (advancePc 2 (writeV x (s.v.get x ||| s.v.get y) s))
  | andReg (x y : RegNum) : Completes s (.andReg x y) (advancePc 2 (writeV x (s.v.get x &&& s.v.get y) s))
  | xorReg (x y : RegNum) : Completes s (.xorReg x y) (advancePc 2 (writeV x (s.v.get x ^^^ s.v.get y) s))
  | addReg (x y : RegNum) :
    Completes s (.addReg x y)
      (advancePc 2 (writeWithFlag x (s.v.get x + s.v.get y) (carry (s.v.get x) (s.v.get y)) s))
  | subReg (x y : RegNum) :
    Completes s (.subReg x y)
      (advancePc 2 (writeWithFlag x (s.v.get x - s.v.get y) (noBorrow (s.v.get x) (s.v.get y)) s))
  | shr (x y : RegNum) :
    Completes s (.shr x y) (advancePc 2 (writeWithFlag x (s.v.get x >>> 1) (lowBit (s.v.get x)) s))
  | subnReg (x y : RegNum) :
    Completes s (.subnReg x y)
      (advancePc 2 (writeWithFlag x (s.v.get y - s.v.get x) (noBorrow (s.v.get y) (s.v.get x)) s))
  | shl (x y : RegNum) :
    Completes s (.shl x y) (advancePc 2 (writeWithFlag x (s.v.get x <<< 1) (highBit (s.v.get x)) s))
  | sneReg (x y : RegNum) :
    Completes s (.sneReg x y) { s with pc := if (s.v.get x).toNat = (s.v.get y).toNat then s.pc + 2 else s.pc + 4 }
  | ldI (nnn : Addr12) : Completes s (.ldI nnn) (advancePc 2 { s with i := addrWord nnn })
  | jpV0 (nnn : Addr12) (even : ((s.v.get 0).toNat + nnn.toNat) % 2 = 0) :
    Completes s (.jpV0 nnn) { s with pc := offsetTarget s nnn }
  | rnd (x : RegNum) (kk : Byte) :
    Completes s (.rnd x kk) (advancePc 2 (consumeDraw (writeV x (drawnByte s &&& kk) s)))
  | drw (x y : RegNum) (n : Nibble) (inBounds : ¬ (0 < n.toNat ∧ 0xFFF < lastFromI s n.toNat)) :
    Completes s (.drw x y n) (advancePc 2 (emit (scanned x y n s).drawn
      (writeV vf (flagByte (scanned x y n s).hit) { s with fb := (scanned x y n s).fb })))
  | skp (x : RegNum) (k : KeyNum) (h : k.val = (s.v.get x).toNat) :
    Completes s (.skp x) { s with pc := if s.key.get k = true then s.pc + 4 else s.pc + 2 }
  | sknp (x : RegNum) (k : KeyNum) (h : k.val = (s.v.get x).toNat) :
    Completes s (.sknp x) { s with pc := if s.key.get k = false then s.pc + 4 else s.pc + 2 }
  | ldVxDt (x : RegNum) : Completes s (.ldVxDt x) (advancePc 2 (writeV x s.dt s))
  | ldVxK (x : RegNum) : Completes s (.ldVxK x) (advancePc 2 { s with newPress := false, run := .waitingForKey x })
  | ldDtVx (x : RegNum) : Completes s (.ldDtVx x) (advancePc 2 { s with dt := s.v.get x })
  | ldStVx (x : RegNum) : Completes s (.ldStVx x) (advancePc 2 { s with st := s.v.get x })
  | addI (x : RegNum) (inRange : s.i.toNat + (s.v.get x).toNat ≤ 0xFFF) :
    Completes s (.addI x) (advancePc 2 { s with i := BitVec.ofNat 16 (s.i.toNat + (s.v.get x).toNat) })
  | ldF (x : RegNum) : Completes s (.ldF x) (advancePc 2 { s with i := BitVec.ofNat 16 ((s.v.get x).toNat * 5) })
  | ldB (x : RegNum) (pastFont : 0x050 ≤ s.i.toNat) (inRange : s.i.toNat + 2 ≤ 0xFFF) :
    Completes s (.ldB x) (advancePc 2 { s with mem := s.mem.writeBytes s.i.toNat (bcdDigits (s.v.get x)) })
  | storeRegs (x : RegNum) (pastFont : 0x050 ≤ s.i.toNat) (inRange : s.i.toNat + x.val ≤ 0xFFF) :
    Completes s (.storeRegs x) (advancePc 2 { s with mem := s.mem.writeBytes s.i.toNat (regsUpTo s x) })
  | loadRegs (x : RegNum) (v : Vector Byte 16) (inBounds : s.i.toNat + x.val ≤ 0xFFF)
    (loaded : ∀ r, v.get r = if r ≤ x then s.mem.read (s.i.toNat + r.val) else s.v.get r) :
    Completes s (.loadRegs x) (advancePc 2 { s with v := v })

/-- The instruction reports this error with this info on `s` (rules R282 and R284). -/
inductive Reports (s : State) : Instr → ErrorKind → Nat → Prop
  | drw (x y : RegNum) (n : Nibble) (h : 0 < n.toNat ∧ 0xFFF < lastFromI s n.toNat) :
    Reports s (.drw x y n) .memReadOutOfBounds (lastFromI s n.toNat)
  | skp (x : RegNum) (h : 15 < (s.v.get x).toNat) : Reports s (.skp x) .keyIndexRange (s.v.get x).toNat
  | sknp (x : RegNum) (h : 15 < (s.v.get x).toNat) : Reports s (.sknp x) .keyIndexRange (s.v.get x).toNat
  | addI (x : RegNum) (h : 0xFFF < s.i.toNat + (s.v.get x).toNat) :
    Reports s (.addI x) .indexRange (s.i.toNat + (s.v.get x).toNat)
  | loadRegs (x : RegNum) (h : 0xFFF < s.i.toNat + x.val) :
    Reports s (.loadRegs x) .memReadOutOfBounds (s.i.toNat + x.val)

/-- The instruction raises this error with this info on `s` (rules R282 and R283). -/
inductive Raises (s : State) : Instr → ErrorKind → Nat → Prop
  | ret (h : s.sp.val = 0) : Raises s .ret .stackUnderflow 0
  | jp (nnn : Addr12) (odd : nnn.toNat % 2 = 1) : Raises s (.jp nnn) .misalignedTarget nnn.toNat
  | callOdd (nnn : Addr12) (odd : nnn.toNat % 2 = 1) : Raises s (.call nnn) .misalignedTarget nnn.toNat
  | callFull (nnn : Addr12) (even : nnn.toNat % 2 = 0) (full : s.sp.val = 16) :
    Raises s (.call nnn) .stackOverflow nnn.toNat
  | jpV0 (nnn : Addr12) (odd : ((s.v.get 0).toNat + nnn.toNat) % 2 = 1) :
    Raises s (.jpV0 nnn) .misalignedTarget ((s.v.get 0).toNat + nnn.toNat)
  | ldBFont (x : RegNum) (font : s.i.toNat ≤ 0x04F) : Raises s (.ldB x) .fontWriteViolation s.i.toNat
  | ldBBounds (x : RegNum) (pastFont : 0x050 ≤ s.i.toNat) (outside : 0xFFF < s.i.toNat + 2) :
    Raises s (.ldB x) .memWriteOutOfBounds (s.i.toNat + 2)
  | storeRegsFont (x : RegNum) (font : s.i.toNat ≤ 0x04F) : Raises s (.storeRegs x) .fontWriteViolation s.i.toNat
  | storeRegsBounds (x : RegNum) (pastFont : 0x050 ≤ s.i.toNat) (outside : 0xFFF < s.i.toNat + x.val) :
    Raises s (.storeRegs x) .memWriteOutOfBounds (s.i.toNat + x.val)

/-- Rule R16: one of the three outcomes. -/
inductive Executes (s : State) (i : Instr) : State → Prop
  | completes {t : State} (h : Completes s i t) : Executes s i t
  | reports {e : ErrorKind} {info : Nat} (h : Reports s i e info) : Executes s i (reportedBy e info s)
  | raises {e : ErrorKind} {info : Nat} (h : Raises s i e info) : Executes s i (haltedBy e info s)

/-- No instruction stops, and each has one of the three outcomes. -/
theorem exec_executes (i : Instr) (s : State) : ∃ t, exec i s = .next t ∧ Executes s i t := by
  cases i
  case ret =>
    refine ⟨_, exec_ret_eq s, ?_⟩
    split
    · next h => exact .raises (.ret h)
    · exact .completes (.ret ⟨s.sp.val - 1, _⟩ (by dsimp only; omega))
  case jp nnn =>
    refine ⟨_, exec_jp_eq nnn s, ?_⟩
    split
    · next h => exact .raises (.jp nnn h)
    · exact .completes (.jp nnn (by omega))
  case call nnn =>
    refine ⟨_, exec_call_eq nnn s, ?_⟩
    split_ifs with hodd hroom
    · exact .raises (.callOdd nnn hodd)
    · exact .completes (.call nnn (by omega) hroom)
    · exact .raises (.callFull nnn (by omega) (by omega))
  case seImm x kk => exact ⟨_, skipIf_beq_eq (s.v.get x) kk s, .completes (.seImm x kk)⟩
  case sneImm x kk => exact ⟨_, skipIf_bne_eq (s.v.get x) kk s, .completes (.sneImm x kk)⟩
  case seReg x y => exact ⟨_, skipIf_beq_eq (s.v.get x) (s.v.get y) s, .completes (.seReg x y)⟩
  case sneReg x y => exact ⟨_, skipIf_bne_eq (s.v.get x) (s.v.get y) s, .completes (.sneReg x y)⟩
  case jpV0 nnn =>
    refine ⟨_, exec_jpV0_eq nnn s, ?_⟩
    split
    · next h => exact .raises (.jpV0 nnn h)
    · exact .completes (.jpV0 nnn (by omega))
  case drw x y n =>
    refine ⟨_, exec_drw_eq x y n s, ?_⟩
    split
    · next h => exact .reports (.drw x y n h)
    · next h => exact .completes (.drw x y n h)
  case skp x =>
    refine ⟨_, exec_skp_eq x s, ?_⟩
    split
    · next h => exact .completes (.skp x ⟨_, h⟩ rfl)
    · exact .reports (.skp x (by omega))
  case sknp x =>
    refine ⟨_, exec_sknp_eq x s, ?_⟩
    split
    · next h => exact .completes (.sknp x ⟨_, h⟩ rfl)
    · exact .reports (.sknp x (by omega))
  case addI x =>
    refine ⟨_, exec_addI_eq x s, ?_⟩
    split
    · next h => exact .reports (.addI x h)
    · exact .completes (.addI x (by omega))
  case ldB x =>
    refine ⟨_, exec_ldB_eq x s, ?_⟩
    split_ifs with hfont hbounds
    · exact .raises (.ldBFont x hfont)
    · exact .raises (.ldBBounds x (by omega) hbounds)
    · exact .completes (.ldB x (by omega) (by omega))
  case storeRegs x =>
    refine ⟨_, exec_storeRegs_eq x s, ?_⟩
    split_ifs with hfont hbounds
    · exact .raises (.storeRegsFont x hfont)
    · exact .raises (.storeRegsBounds x (by omega) hbounds)
    · exact .completes (.storeRegs x (by omega) (by omega))
  case loadRegs x =>
    refine ⟨_, exec_loadRegs_eq x s, ?_⟩
    split
    · next h => exact .reports (.loadRegs x h)
    · exact .completes (.loadRegs x _ (by omega) (loadedRegs_get s x))
  all_goals exact ⟨_, rfl, .completes (by constructor)⟩

/-- Everything an instruction can do. -/
theorem executes_of_exec {i : Instr} {s t : State} (h : exec i s = .next t) : Executes s i t := by
  obtain ⟨u, hu, he⟩ := exec_executes i s
  cases hu.symm.trans h
  exact he

/-! ### What the outcomes share -/

theorem State.FramesRun.ne_halted {s : State} (h : s.FramesRun) : s.run ≠ .halted := by
  rcases h with h | ⟨r, h⟩ <;> rw [h] <;> exact RunMode.noConfusion

theorem State.FramesRun.ne_loadFailed {s : State} (h : s.FramesRun) : s.run ≠ .loadFailed := by
  rcases h with h | ⟨r, h⟩ <;> rw [h] <;> exact RunMode.noConfusion

/-- An instruction that completes leaves the executor running, or waiting for a key. -/
theorem Completes.framesRun {s t : State} {i : Instr} (h : Completes s i t) (hs : s.FramesRun) : t.FramesRun := by
  cases h
  case ldVxK x => exact .inr ⟨x, rfl⟩
  all_goals exact hs

theorem Completes.fault_eq {s t : State} {i : Instr} (h : Completes s i t) : t.fault = s.fault := by
  cases h <;> rfl

/-- An instruction that completes emits no `Diag`. -/
theorem Completes.out_eq {s t : State} {i : Instr} (h : Completes s i t) :
    ∃ ds, t.out = s.out ++ ds ∧ ∀ o ∈ ds, o.isDiag = false := by
  cases h
  case cls => exact ⟨_, rfl, by simp [Output.isDiag]⟩
  case drw x y n _ =>
    refine ⟨_, rfl, fun o ho => ?_⟩
    obtain ⟨px, py, b, rfl⟩ := scanned_drawn x y n s o ho
    rfl
  all_goals exact ⟨[], by simp, by simp⟩

/-- Rules R281 and R282: what an instruction reports is one of its errors, and not fatal. -/
theorem Reports.error {s : State} {i : Instr} {e : ErrorKind} {info : Nat} (h : Reports s i e info) :
    e ∈ errorsOf i ∧ e.fatal = false := by
  cases h <;> simp [errorsOf, ErrorKind.fatal]

/-- Rules R281 and R282: what an instruction raises is one of its errors, and fatal. -/
theorem Raises.error {s : State} {i : Instr} {e : ErrorKind} {info : Nat} (h : Raises s i e info) :
    e ∈ errorsOf i ∧ e.fatal = true := by
  cases h <;> simp [errorsOf, ErrorKind.fatal]

/-- A read after VF is written. -/
@[simp] theorem get_set_vf (v : Vector Byte 16) (q : RegNum) (b : Byte) :
    (v.set 15 b).get q = if q = 15 then b else v.get q := get_set v 15 q b

/-- The registers an instruction that completes may write (rule R23). -/
theorem Completes.v_get {s t : State} {i : Instr} (h : Completes s i t) {r : RegNum} (hr : writesReg i r = false) :
    t.v.get r = s.v.get r := by
  cases h <;> simp_all [writesReg, vf]

/-! ### The key a register names -/

/-- A number up to 15 names one key. -/
theorem exists_key_of_number {k : KeyNum} {n : Nat} (h : k.val = n) (p : KeyNum → Prop) :
    (∃ k' : KeyNum, k'.val = n ∧ p k') ↔ p k :=
  ⟨fun ⟨_, hk', hp⟩ => Fin.ext (h.trans hk'.symm) ▸ hp, fun hp => ⟨k, h, hp⟩⟩

/-- A number above 15 names none (rule R213). -/
theorem no_key_of_number {n : Nat} (h : 15 < n) (p : KeyNum → Prop) : ¬ ∃ k : KeyNum, k.val = n ∧ p k := by
  rintro ⟨k, hk, -⟩
  have := k.isLt
  omega

/-! ### ST -/

/-- ST set to a given value. -/
def withSt (b : Byte) (s : State) : State := { s with st := b }

/-- No instruction but `Fx18` reads or writes ST. -/
theorem exec_withSt (b : Byte) {i : Instr} (hi : ∀ x, i ≠ .ldStVx x) (s : State) :
    exec i (withSt b s) = mapNext (withSt b) (exec i s) := by
  cases i
  case ldStVx x => exact absurd rfl (hi x)
  case ret => rw [exec_ret_eq, exec_ret_eq, mapNext, apply_dite (withSt b)]; rfl
  case jp => rw [exec_jp_eq, exec_jp_eq, mapNext, apply_ite (withSt b)]; rfl
  case call => rw [exec_call_eq, exec_call_eq, mapNext, apply_ite (withSt b), apply_dite (withSt b)]; rfl
  case jpV0 => rw [exec_jpV0_eq, exec_jpV0_eq, mapNext, apply_ite (withSt b)]; rfl
  case skp => rw [exec_skp_eq, exec_skp_eq, mapNext, apply_dite (withSt b)]; rfl
  case sknp => rw [exec_sknp_eq, exec_sknp_eq, mapNext, apply_dite (withSt b)]; rfl
  case drw => rw [exec_drw_eq, exec_drw_eq, mapNext, apply_ite (withSt b)]; rfl
  case addI => rw [exec_addI_eq, exec_addI_eq, mapNext, apply_ite (withSt b)]; rfl
  case ldB => rw [exec_ldB_eq, exec_ldB_eq, mapNext, apply_ite (withSt b), apply_ite (withSt b)]; rfl
  case storeRegs => rw [exec_storeRegs_eq, exec_storeRegs_eq, mapNext, apply_ite (withSt b), apply_ite (withSt b)]; rfl
  case loadRegs => rw [exec_loadRegs_eq, exec_loadRegs_eq, mapNext, apply_ite (withSt b)]; rfl
  all_goals rfl

/-! ### The obligations -/

/-- Settles O9: the three outcomes, each with the errors it can have. -/
theorem everyInstructionCompletesReportsOrRaises : Obligations.EveryInstructionCompletesReportsOrRaises := by
  intro i s hrun
  obtain ⟨t, ht, hc | hr | hr⟩ := exec_executes i s
  · obtain ⟨ds, hout, hds⟩ := hc.out_eq
    exact .inl ⟨t, ds, ht, (hc.framesRun (.inl hrun)).ne_halted, hc.fault_eq, hout, hds⟩
  · exact .inr (.inl ⟨_, hr.error.1, _, hr.error.2, ht⟩)
  · exact .inr (.inr ⟨_, hr.error.1, _, hr.error.2, ht⟩)

/-- Settles O10: what completes stands where its case says; what reports stands at the next instruction, and what raises at
`pc0`. -/
theorem pcAfterEachInstruction : Obligations.PcAfterEachInstruction := by
  intro i s t hrun h
  obtain hc | hr | hr := executes_of_exec h
  · refine ⟨fun ht => absurd ht ((hc.framesRun (.inl hrun)).ne_halted), fun _ => ?_⟩
    cases hc
    case ret j hj _ => exact ⟨j, hj, rfl⟩
    case jp | call => exact addrWord_toNat _
    case jpV0 => exact offsetTarget_toNat _ _
    case seImm | sneImm | seReg | sneReg => simp only [BitVec.toNat_inj]
    case skp x k hk _ | sknp x k hk _ => simp only [exists_key_of_number hk]
    all_goals rfl
  · refine ⟨fun ht => RunMode.noConfusion (hrun.symm.trans ht), fun _ => ?_⟩
    cases hr
    case skp x hx _ | sknp x hx _ => exact (if_neg (no_key_of_number hx _)).symm
    all_goals rfl
  · exact ⟨fun _ => rfl, fun ht => absurd rfl ht⟩

/-- Settles O11: only an instruction that completes writes a register, and only those of its row. -/
theorem registersWrittenAsTheTableSays : Obligations.RegistersWrittenAsTheTableSays := by
  intro i s t r h hr
  obtain hc | - | - := executes_of_exec h
  · exact hc.v_get hr
  all_goals rfl

/-- Settles O12: a report or a raise writes none of these elements, and an instruction that completes those of its case. -/
theorem elementsWrittenOnlyByTheirInstructions : Obligations.ElementsWrittenOnlyByTheirInstructions := by
  intro i s t h
  obtain hc | - | - := executes_of_exec h
  · cases hc <;> simp
  all_goals simp [reportedBy, haltedBy]

/-- Settles O53: `Fx18` overwrites ST without a look at it, and every other instruction passes it on. -/
theorem soundTimerIsReadByNoInstruction : Obligations.SoundTimerIsReadByNoInstruction := by
  intro i s b
  by_cases hi : ∃ x, i = .ldStVx x
  · obtain ⟨x, rfl⟩ := hi
    simp only [Instr.ldStVx.injEq, exists_eq', if_true]
    rfl
  · simp only [if_neg hi]
    exact exec_withSt b (fun x hx => hi ⟨x, hx⟩) s

end Sys2Proof.Machine
end

section
/-! PROOFS. The cycle and the step taken apart (rules R120 to R130 and R250 to R260): what a cycle can do, what a step can do, and
from these the invariants of rule R44, the immutable font (rule R71) and the end of the run by a fatal error (rule R283). -/

namespace Sys2Proof.Machine

/-! ### What a cycle can do -/

/-- The state after the wait of `Fx0A` took its key (rule R124). -/
def keyTaken (r : RegNum) (s : State) : State :=
  { writeV r (BitVec.ofNat 8 s.lastKey.val) s with newPress := false, run := .running }

/-- One executor cycle (rule R120): an instruction that completes, a reported or a fatal error, a key taken or a slot idled. -/
inductive Cycles (s : State) : State → Prop
  | completes {i : Instr} {t : State} (run : s.run = .running) (pc : s.pc.toNat ≤ 0xFFE) (h : Completes s i t) : Cycles s t
  | reports {e : ErrorKind} {info : Nat} (run : s.run = .running) (pc : s.pc.toNat ≤ 0xFFE) (notFatal : e.fatal = false) :
    Cycles s (reportedBy e info s)
  | raises {e : ErrorKind} {info : Nat} (run : s.run = .running) (fatal : e.fatal = true) : Cycles s (haltedBy e info s)
  | takesKey {r : RegNum} (run : s.run = .waitingForKey r) (press : s.newPress = true) : Cycles s (keyTaken r s)
  | idles {r : RegNum} (run : s.run = .waitingForKey r) (noPress : s.newPress = false) : Cycles s s

/-- Rule R121, of a fetch past memory. -/
theorem instructionCycle_past_memory {s : State} (h : 0xFFE < s.pc.toNat) :
    instructionCycle s = .next (haltedBy .fetchOutOfBounds s.pc.toNat s) :=
  if_pos ((outOfBounds_eq_true _).2 (Nat.succ_lt_succ h))

/-- Rule R124, on a new press. -/
theorem cycle_of_newPress {s : State} {r : RegNum} (hr : s.run = .waitingForKey r) (hp : s.newPress = true) :
    cycle s = .next (keyTaken r s) := by
  simp [cycle, hr, keyWaitCheck, hp, keyTaken]

/-- Rule R124, without one. -/
theorem cycle_of_noPress {s : State} {r : RegNum} (hr : s.run = .waitingForKey r) (hp : s.newPress = false) :
    cycle s = .next s := by
  simp [cycle, hr, keyWaitCheck, hp]

/-- Everything an instruction cycle can do. -/
theorem instructionCycle_cycles {s : State} (hrun : s.run = .running) :
    ∃ t, instructionCycle s = .next t ∧ Cycles s t := by
  by_cases hpc : s.pc.toNat ≤ 0xFFE
  · cases hd : decodeWord (fetchWord s) with
    | instr i =>
      rw [instructionCycle_of_instr hpc hd]
      obtain ⟨t, ht, hc | hr | hr⟩ := exec_executes i s
      · exact ⟨t, ht, .completes hrun hpc hc⟩
      · exact ⟨_, ht, .reports hrun hpc hr.error.2⟩
      · exact ⟨_, ht, .raises hrun hr.error.2⟩
    | undefined r => exact ⟨_, instructionCycle_of_undefined hpc hd, .reports hrun hpc rfl⟩
  · exact ⟨_, instructionCycle_past_memory (Nat.not_le.1 hpc), .raises hrun rfl⟩

/-- While frames run, a cycle answers a next state, in one of the five ways. -/
theorem cycle_cycles {s : State} (h : s.FramesRun) : ∃ t, cycle s = .next t ∧ Cycles s t := by
  obtain hrun | ⟨r, hrun⟩ := h
  · rw [cycle_of_running hrun]
    exact instructionCycle_cycles hrun
  · cases hp : s.newPress with
    | true => exact ⟨_, cycle_of_newPress hrun hp, .takesKey hrun hp⟩
    | false => exact ⟨_, cycle_of_noPress hrun hp, .idles hrun hp⟩

/-- Everything a cycle can do. -/
theorem cycles_of_cycle {s t : State} (h : s.FramesRun) (ht : cycle s = .next t) : Cycles s t := by
  obtain ⟨u, hu, hc⟩ := cycle_cycles h
  cases hu.symm.trans ht
  exact hc

/-! ### What a step can do -/

/-- One step while frames run (rule R250): a slot of the batch or one of the six other phases. -/
inductive Steps (s : State) : State → Prop
  | poll (phase : s.phase = .poll) :
    Steps s { poll (frameEvents s) s with phase := .batch 0, events := s.events.tail, polls := s.polls + 1 }
  | slot {k : Nat} {t : State} (phase : s.phase = .batch k) (h : Cycles s t) : Steps s (afterSlot k t)
  | audio (phase : s.phase = .audio) : Steps s { audioGate s with phase := .tick }
  | tick (phase : s.phase = .tick) : Steps s { timerTick s with phase := .present }
  | present (phase : s.phase = .present) : Steps s { presentFrame s with phase := .sleep }
  | sleep (phase : s.phase = .sleep) : Steps s { s with phase := .endFrame }
  | endFrame (phase : s.phase = .endFrame) : Steps s { endOfFrame s with phase := .poll }

/-- While frames run, a step answers a next state, in one of the seven ways. -/
theorem step_steps {s : State} (h : s.FramesRun) : ∃ t, step s = .next t ∧ Steps s t := by
  cases hp : s.phase
  case batch k =>
    obtain ⟨t, ht, hc⟩ := cycle_cycles h
    exact ⟨_, by rw [step_of_batch h hp, ht, andThen_next], .slot hp hc⟩
  all_goals
    rw [step_of_framesRun h, performPhase, hp]
    exact ⟨_, rfl, by constructor; exact hp⟩

/-- Everything a step can do. -/
theorem steps_of_step {s t : State} (h : step s = .next t) : Steps s t := by
  obtain ⟨u, hu, hs⟩ := step_steps (framesRun_of_step h)
  cases hu.symm.trans h
  exact hs

/-! ### The invariants -/

/-- An advance of the program counter from a fetchable address (rules R122 and R150) keeps PC even and in its range. -/
theorem advance_ok {p n : Word} (even : p.toNat % 2 = 0) (le : p.toNat ≤ 0xFFE) (hn : n = 2 ∨ n = 4) :
    (p + n).toNat % 2 = 0 ∧ (p + n).toNat ≤ 0x10FE := by
  have hval : n.toNat = 2 ∨ n.toNat = 4 := hn.imp (congrArg BitVec.toNat) (congrArg BitVec.toNat)
  have hlt : p.toNat + n.toNat < 2 ^ 16 := by omega
  rw [BitVec.toNat_add, Nat.mod_eq_of_lt hlt]
  omega

/-- The return address of a call (rule R144). -/
theorem add_two_toNat {p : Word} (h : p.toNat ≤ 0xFFE) : (p + 2).toNat = p.toNat + 2 := by
  rw [BitVec.toNat_add]
  exact Nat.mod_eq_of_lt (show p.toNat + 2 < 2 ^ 16 by omega)

/-- A skip (rule R150) from a fetchable address does so too. -/
theorem skip_ok {p n m : Word} {c : Prop} [Decidable c] (even : p.toNat % 2 = 0) (le : p.toNat ≤ 0xFFE)
    (hn : n = 2 ∨ n = 4) (hm : m = 2 ∨ m = 4) :
    (if c then p + n else p + m).toNat % 2 = 0 ∧ (if c then p + n else p + m).toNat ≤ 0x10FE := by
  split
  · exact advance_ok even le hn
  · exact advance_ok even le hm

/-- Where PC stands after an instruction that completes: even, and at most 0x10FE, the largest target of `Bnnn` (rule R44). -/
theorem Completes.pc_ok {s t : State} {i : Instr} (h : Completes s i t) (hs : s.Inv) (hpc : s.pc.toNat ≤ 0xFFE) :
    t.pc.toNat % 2 = 0 ∧ t.pc.toNat ≤ 0x10FE := by
  cases h
  case ret j hj =>
    obtain ⟨even, le⟩ := hs.stack_valid j.val j.isLt (by omega)
    exact ⟨even, le.trans (by decide)⟩
  case jp nnn even | call nnn even _ =>
    dsimp only
    rw [addrWord_toNat]
    exact ⟨even, by have := nnn.isLt; omega⟩
  case jpV0 nnn even =>
    dsimp only
    rw [offsetTarget_toNat]
    exact ⟨even, by have := nnn.isLt; have := (s.v.get 0).isLt; omega⟩
  case seImm | seReg | skp | sknp => exact skip_ok hs.pc_even hpc (.inr rfl) (.inl rfl)
  case sneImm | sneReg => exact skip_ok hs.pc_even hpc (.inl rfl) (.inr rfl)
  all_goals exact advance_ok hs.pc_even hpc (.inl rfl)

theorem Completes.i_le {s t : State} {i : Instr} (h : Completes s i t) (hs : s.Inv) : t.i.toNat ≤ 0xFFF := by
  cases h
  case ldI nnn =>
    have := nnn.isLt
    simp only [advancePc_i, addrWord_toNat]
    omega
  case addI x inRange =>
    rw [advancePc_i, BitVec.toNat_ofNat]
    exact (Nat.mod_le _ _).trans (by omega)
  case ldF x =>
    have := (s.v.get x).isLt
    rw [advancePc_i, BitVec.toNat_ofNat]
    exact (Nat.mod_le _ _).trans (by omega)
  all_goals exact hs.i_le

/-- Every entry in use is a return address: even, and at most 0x1000, the address after the last word (rule R44). -/
theorem Completes.stack_valid {s t : State} {i : Instr} (h : Completes s i t) (hs : s.Inv) (hpc : s.pc.toNat ≤ 0xFFE)
    (j : Nat) (hj : j < 16) (hsp : j < t.sp.val) : t.stack[j].toNat % 2 = 0 ∧ t.stack[j].toNat ≤ 0x1000 := by
  cases h
  case ret k hk =>
    have : j < k.val := hsp
    exact hs.stack_valid j hj (by omega)
  case call nnn even room =>
    have : j < s.sp.val + 1 := hsp
    have := hs.pc_even
    dsimp only
    rw [Vector.getElem_set]
    split
    · rw [add_two_toNat hpc]; omega
    · exact hs.stack_valid j hj (by omega)
  all_goals exact hs.stack_valid j hj hsp

/-- A store of rules R70 to R72 keeps memory in canonical form and in the address space. -/
theorem Completes.mem_ok {s t : State} {i : Instr} (h : Completes s i t) (hs : s.Inv) : t.mem.wf ∧ t.mem.InSpace := by
  have store (bs : List Byte) (h : s.i.toNat + bs.length ≤ 0x1000) :
      (s.mem.writeBytes s.i.toNat bs).wf ∧ (s.mem.writeBytes s.i.toNat bs).InSpace :=
    ⟨Memory.writeBytes_wf bs hs.mem_canonical _, Memory.writeBytes_inSpace bs hs.mem_inSpace h⟩
  cases h
  case ldB x _ inRange => exact store _ (by rw [bcdDigits_length]; omega)
  case storeRegs x _ inRange => exact store _ (by rw [regsUpTo_length]; omega)
  all_goals exact ⟨hs.mem_canonical, hs.mem_inSpace⟩

theorem Completes.phase_eq {s t : State} {i : Instr} (h : Completes s i t) : t.phase = s.phase := by
  cases h <;> rfl

theorem Completes.slotsPerFrame_eq {s t : State} {i : Instr} (h : Completes s i t) :
    t.slotsPerFrame = s.slotsPerFrame := by
  cases h <;> rfl

/-- While frames run there is no fault record, and no run state that asks for one (rule R44). -/
theorem fault_iff_of_framesRun {s t : State} (hs : s.Inv) (h : s.FramesRun) (ht : t.run ≠ .halted ∧ t.run ≠ .loadFailed)
    (hf : t.fault = s.fault) : t.fault.isSome = true ↔ t.run = .halted ∨ t.run = .loadFailed := by
  have : ¬ (s.run = .halted ∨ s.run = .loadFailed) := by
    rcases h with h | ⟨r, h⟩ <;> simp [h]
  rw [hf, hs.fault_iff]
  tauto

/-- A cycle keeps the invariants. -/
theorem Cycles.inv {s t : State} (h : Cycles s t) (hs : s.Inv) : t.Inv := by
  cases h with
  | completes run pc h =>
    have goes := h.framesRun (.inl run)
    exact {
      pc_even := (h.pc_ok hs pc).1
      pc_le := (h.pc_ok hs pc).2
      i_le := h.i_le hs
      stack_valid := h.stack_valid hs pc
      mem_canonical := (h.mem_ok hs).1
      mem_inSpace := (h.mem_ok hs).2
      fault_iff := fault_iff_of_framesRun hs (.inl run) ⟨goes.ne_halted, goes.ne_loadFailed⟩ h.fault_eq
      slots_min := by rw [h.slotsPerFrame_eq]; exact hs.slots_min
      slots_max := by rw [h.slotsPerFrame_eq]; exact hs.slots_max
      slot_lt := by rw [h.slotsPerFrame_eq, h.phase_eq]; exact hs.slot_lt }
  | reports run pc =>
    obtain ⟨even, le⟩ := advance_ok hs.pc_even pc (.inl rfl)
    exact { hs with pc_even := even, pc_le := le }
  | raises => exact { hs with fault_iff := by simp [haltedBy] }
  | takesKey run => exact { hs with fault_iff := fault_iff_of_framesRun hs (.inr ⟨_, run⟩) (by simp [keyTaken]) rfl }
  | idles => exact hs

/-- Rules R253 and R254: the next slot is one of the frame's. -/
theorem afterSlot_inv {s : State} (hs : s.Inv) (k : Nat) : (afterSlot k s).Inv := by
  unfold afterSlot
  split
  · exact hs
  · refine { hs with slot_lt := fun j hj => ?_ }
    dsimp only at hj
    split at hj
    · next h => cases hj; exact h
    · cases hj

/-! ### What the phases leave -/

/-- What an event can write, set to given values (rule R252). -/
def withKeys (key : Vector Bool 16) (lastKey : KeyNum) (newPress quit : Bool) (s : State) : State :=
  { s with key, lastKey, newPress, quitPending := quit }

/-- Rule R252: a press that finds its key up is new. -/
theorem applyEvent_keyDown_up {s : State} {k : KeyNum} (h : s.key.get k = false) :
    applyEvent s (.keyDown k) = { s with key := s.key.set k.val true, lastKey := k, newPress := true } :=
  if_neg (by simp [h])

/-- Rule R252: a press that finds its key down is none. -/
theorem applyEvent_keyDown_down {s : State} {k : KeyNum} (h : s.key.get k = true) : applyEvent s (.keyDown k) = s :=
  if_pos h

theorem applyEvent_eq_withKeys (s : State) (e : HostEvent) :
    ∃ key lastKey newPress quit, applyEvent s e = withKeys key lastKey newPress quit s := by
  cases e with
  | keyDown k =>
    cases hk : s.key.get k with
    | false => exact ⟨_, _, _, _, applyEvent_keyDown_up hk⟩
    | true => exact ⟨_, _, _, _, applyEvent_keyDown_down hk⟩
  | keyUp k => exact ⟨_, _, _, _, rfl⟩
  | quit => exact ⟨_, _, _, _, rfl⟩

theorem poll_eq_withKeys (evs : List HostEvent) (s : State) :
    ∃ key lastKey newPress quit, poll evs s = withKeys key lastKey newPress quit s := by
  induction evs generalizing s with
  | nil => exact ⟨_, _, _, _, rfl⟩
  | cons e evs ih =>
    obtain ⟨key, lastKey, newPress, quit, h⟩ := ih (applyEvent s e)
    obtain ⟨_, _, _, _, he⟩ := applyEvent_eq_withKeys s e
    exact ⟨key, lastKey, newPress, quit, by rw [poll_cons, h, he]; rfl⟩

/-- Rule R252: POLL writes the keypad's elements and QUIT_PENDING alone. -/
theorem poll_eq (evs : List HostEvent) (s : State) :
    poll evs s = { s with
      key := (poll evs s).key, lastKey := (poll evs s).lastKey, newPress := (poll evs s).newPress
      quitPending := (poll evs s).quitPending } := by
  obtain ⟨_, _, _, _, h⟩ := poll_eq_withKeys evs s
  rw [h]
  rfl

@[simp] theorem poll_run (evs : List HostEvent) (s : State) : (poll evs s).run = s.run := by rw [poll_eq]

@[simp] theorem poll_mem (evs : List HostEvent) (s : State) : (poll evs s).mem = s.mem := by rw [poll_eq]

/-- Rule R256, with ST above zero. -/
theorem audioGate_of_pos {s : State} (h : 0 < s.st.toNat) :
    audioGate s = { s with audioOn := true, out := s.out ++ [.audioResume] } := if_pos h

/-- Rule R256, with ST zero. -/
theorem audioGate_of_zero {s : State} (h : s.st.toNat = 0) :
    audioGate s = { s with audioOn := false, out := s.out ++ [.audioPause] } := if_neg (by omega)

/-- AUDIO writes AUDIO_ON and the trace alone (rule R256). -/
theorem audioGate_eq (s : State) : audioGate s = { s with audioOn := (audioGate s).audioOn, out := (audioGate s).out } := by
  unfold audioGate
  split <;> rfl

@[simp] theorem audioGate_run (s : State) : (audioGate s).run = s.run := by rw [audioGate_eq]

@[simp] theorem audioGate_mem (s : State) : (audioGate s).mem = s.mem := by rw [audioGate_eq]

/-- Rule R259, with a quit pending. -/
theorem endOfFrame_of_quit {s : State} (h : s.quitPending = true) : endOfFrame s = { s with run := .stopped } := if_pos h

/-- Rule R259, with none. -/
theorem endOfFrame_of_noQuit {s : State} (h : s.quitPending = false) : endOfFrame s = s := if_neg (by simp [h])

/-- END writes RUN alone (rule R259). -/
theorem endOfFrame_eq (s : State) : endOfFrame s = { s with run := (endOfFrame s).run } := by
  unfold endOfFrame
  split <;> rfl

@[simp] theorem endOfFrame_mem (s : State) : (endOfFrame s).mem = s.mem := by rw [endOfFrame_eq]

theorem endOfFrame_run_ne_halted {s : State} (h : s.run ≠ .halted) : (endOfFrame s).run ≠ .halted := by
  unfold endOfFrame
  split
  · exact RunMode.noConfusion
  · exact h

/-- The frame's move writes the phase alone (rules R253 and R254). -/
theorem afterSlot_eq (k : Nat) (s : State) : afterSlot k s = { s with phase := (afterSlot k s).phase } := by
  unfold afterSlot
  split <;> rfl

@[simp] theorem afterSlot_run (k : Nat) (s : State) : (afterSlot k s).run = s.run := by rw [afterSlot_eq]

@[simp] theorem afterSlot_mem (k : Nat) (s : State) : (afterSlot k s).mem = s.mem := by rw [afterSlot_eq]

/-- Rule R254. -/
theorem afterSlot_of_halted {k : Nat} {s : State} (h : s.run = .halted) : afterSlot k s = s := if_pos h

/-- A step keeps the invariants. -/
theorem Steps.inv {s t : State} (h : Steps s t) (goes : s.FramesRun) (hs : s.Inv) : t.Inv := by
  cases h with
  | poll =>
    rw [poll_eq]
    refine { hs with slot_lt := fun k hk => ?_ }
    cases hk
    exact Nat.lt_of_lt_of_le (by decide) hs.slots_min
  | slot _ h => exact afterSlot_inv (h.inv hs) _
  | audio =>
    rw [audioGate_eq]
    exact { hs with slot_lt := nofun }
  | tick | present | sleep => exact { hs with slot_lt := nofun }
  | endFrame =>
    unfold endOfFrame
    split
    · exact { hs with
        fault_iff := fault_iff_of_framesRun hs goes ⟨RunMode.noConfusion, RunMode.noConfusion⟩ rfl
        slot_lt := nofun }
    · exact { hs with slot_lt := nofun }

/-! ### The font -/

/-- Rule R71: a store of an instruction begins past the font. -/
theorem Completes.font {s t : State} {i : Instr} (h : Completes s i t) {a : Nat} (ha : a < 0x050) :
    t.mem.read a = s.mem.read a := by
  have store (bs : List Byte) (h : 0x050 ≤ s.i.toNat) : (s.mem.writeBytes s.i.toNat bs).read a = s.mem.read a := by
    rw [Memory.read_writeBytes, if_neg (by omega)]
  cases h
  case ldB x pastFont _ | storeRegs x pastFont _ => exact store _ pastFont
  all_goals rfl

theorem Cycles.font {s t : State} (h : Cycles s t) {a : Nat} (ha : a < 0x050) : t.mem.read a = s.mem.read a := by
  cases h with
  | completes _ _ h => exact h.font ha
  | _ => rfl

/-! ### A fatal error -/

/-- After a cycle frames still run, or the cycle raised a fatal error (rules R254 and R283). -/
theorem Cycles.framesRun_or_raised {s t : State} (h : Cycles s t) :
    t.FramesRun ∨ ∃ e info, e.fatal = true ∧ t = haltedBy e info s := by
  cases h with
  | completes run _ h => exact .inl (h.framesRun (.inl run))
  | reports run => exact .inl (.inl run)
  | raises _ fatal => exact .inr ⟨_, _, fatal, rfl⟩
  | takesKey => exact .inl (.inl rfl)
  | idles run => exact .inl (.inr ⟨_, run⟩)

/-! ### The obligations -/

/-- Settles O58: a step is a slot, whose cycle keeps the invariants, or another phase, which writes none of their elements but
RUN and the phase. -/
theorem everyStepKeepsTheInvariants : Obligations.EveryStepKeepsTheInvariants :=
  fun _ _ hs h => (steps_of_step h).inv (framesRun_of_step h) hs

/-- Settles O59: only a slot writes memory, and no store of it begins in the font. -/
theorem noStepChangesTheFont : Obligations.NoStepChangesTheFont := by
  intro s t h a ha
  cases steps_of_step h with
  | slot _ hc => rw [afterSlot_mem]; exact hc.font ha
  | poll => exact congrArg (Memory.read · a) (poll_mem _ s)
  | audio => exact congrArg (Memory.read · a) (audioGate_mem s)
  | endFrame => exact congrArg (Memory.read · a) (endOfFrame_mem s)
  | tick | present | sleep => rfl

/-- Settles O8: the fetch bounds come before the decoder, and a raise keeps the phase. -/
theorem fetchPastMemoryHalts : Obligations.FetchPastMemoryHalts := by
  intro s k hrun hk hpc
  rw [step_of_batch (.inl hrun) hk, cycle_of_running hrun, instructionCycle_past_memory hpc]
  rfl

/-- Settles O48: RUN alone decides, and while frames run a step has one of its outcomes. -/
theorem stepStopsExactlyInTheTerminalModes : Obligations.StepStopsExactlyInTheTerminalModes := by
  intro s
  refine ⟨fun h => ?_, fun h => ?_, fun h => ?_, fun h => ?_⟩
  case refine_4 =>
    obtain ⟨t, ht, -⟩ := step_steps h
    exact ⟨t, ht⟩
  all_goals rw [step, frameStep, h]

/-- Settles O49: of all a step can do only a slot's raise halts, and it keeps the phase. -/
theorem fatalErrorEndsEverything : Obligations.FatalErrorEndsEverything := by
  intro s t goes h ht
  refine ⟨?_, (stepStopsExactlyInTheTerminalModes t).1 ht⟩
  have alive := goes.ne_halted
  cases steps_of_step h with
  | slot _ hc =>
    rw [afterSlot_run] at ht
    rw [afterSlot_of_halted ht]
    exact hc.framesRun_or_raised.resolve_left fun hgoes => hgoes.ne_halted ht
  | poll => exact absurd ((poll_run _ s).symm.trans ht) alive
  | audio => exact absurd ((audioGate_run s).symm.trans ht) alive
  | endFrame => exact absurd ht (endOfFrame_run_ne_halted alive)
  | tick | present | sleep => exact absurd ht alive

end Sys2Proof.Machine
end

section
/-! PROOFS. The slots of a key wait (rule R124), the phases of a frame (rules R250 to R260) and the events of a POLL (rule
R252). -/

namespace Sys2Proof.Machine

/-! ### A slot of a key wait -/

/-- Rule R124, as a step. -/
theorem step_of_newPress {s : State} {r : RegNum} {k : Nat} (hr : s.run = .waitingForKey r) (hk : s.phase = .batch k)
    (hp : s.newPress = true) : step s = .next (afterSlot k (keyTaken r s)) := by
  rw [step_of_batch (.inr ⟨r, hr⟩) hk, cycle_of_newPress hr hp, andThen_next]

theorem step_of_noPress {s : State} {r : RegNum} {k : Nat} (hr : s.run = .waitingForKey r) (hk : s.phase = .batch k)
    (hp : s.newPress = false) :
    step s = .next { s with phase := if k + 1 < s.slotsPerFrame then .batch (k + 1) else .audio } := by
  rw [step_of_batch (.inr ⟨r, hr⟩) hk, cycle_of_noPress hr hp, andThen_next,
    afterSlot_of_not_halted (State.FramesRun.ne_halted (.inr ⟨r, hr⟩))]

/-- The same, of a state at any slot. -/
theorem step_idle {s : State} {r : RegNum} (hr : s.run = .waitingForKey r) (hp : s.newPress = false) (k : Nat) :
    step { s with phase := .batch k } =
      .next { s with phase := if k + 1 < s.slotsPerFrame then .batch (k + 1) else .audio } :=
  step_of_noPress (s := { s with phase := .batch k }) hr rfl hp

/-- Rules R124 and R253: one idle slot after another. -/
theorem steps_idle {s : State} {r : RegNum} (hr : s.run = .waitingForKey r) (hp : s.newPress = false) {k : Nat}
    (hk : s.phase = .batch k) (j : Nat) (hj : k + j < s.slotsPerFrame) :
    steps j s = .next { s with phase := .batch (k + j) } := by
  induction j with
  | zero => rw [Nat.add_zero, ← hk]; rfl
  | succ j ih =>
    rw [steps_add, ih (by omega), andThen_next, steps, step_idle hr hp, andThen_next,
      if_pos (show k + j + 1 < s.slotsPerFrame from hj)]
    rfl

/-! ### Events in list order -/

/-- Rule R252: what one event says about one key. -/
theorem applyEvent_key_get (s : State) (e : HostEvent) (k : KeyNum) :
    (applyEvent s e).key.get k = if e = .keyDown k ∨ e = .keyUp k then decide (e = .keyDown k) else s.key.get k := by
  cases e with
  | keyDown j =>
    cases hj : s.key.get j with
    | false => simp [applyEvent_keyDown_up hj, eq_comm]
    | true => rw [applyEvent_keyDown_down hj]; by_cases h : j = k <;> simp_all
  | keyUp j => simp [applyEvent, eq_comm]
  | quit => simp [applyEvent]

theorem poll_concat (evs : List HostEvent) (e : HostEvent) (s : State) :
    poll (evs ++ [e]) s = applyEvent (poll evs s) e := poll_append evs [e] s

theorem poll_key_get (evs : List HostEvent) (s : State) (k : KeyNum) :
    (poll evs s).key.get k =
      match (evs.filter fun e => e = .keyDown k || e = .keyUp k).getLast? with
      | none => s.key.get k
      | some e => e = .keyDown k := by
  induction evs using List.reverseRecOn with
  | nil => rfl
  | append_singleton evs e ih =>
    rw [poll_concat, applyEvent_key_get, ih, List.filter_append]
    by_cases h : e = .keyDown k ∨ e = .keyUp k <;> simp [h]

/-- No press of the list is new. -/
def NoNewPress (evs : List HostEvent) (s : State) : Prop :=
  ∀ before k after, evs = before ++ .keyDown k :: after → (poll before s).key.get k = true

theorem NoNewPress.tail {e : HostEvent} {evs : List HostEvent} {s : State} (h : NoNewPress (e :: evs) s) :
    NoNewPress evs (applyEvent s e) :=
  fun before k after hevs => h (e :: before) k after (by rw [hevs]; rfl)

/-- Rule R252: without a new press NEW_PRESS and LAST_KEY are as before. -/
theorem NoNewPress.unchanged {evs : List HostEvent} {s : State} (h : NoNewPress evs s) :
    (poll evs s).newPress = s.newPress ∧ (poll evs s).lastKey = s.lastKey := by
  induction evs generalizing s with
  | nil => exact ⟨rfl, rfl⟩
  | cons e evs ih =>
    rw [poll_cons]
    cases e with
    | keyDown k =>
      have hs := applyEvent_keyDown_down (h [] k evs rfl)
      rw [poll_nil] at hs
      have := ih h.tail
      rwa [hs] at this ⊢
    | keyUp k => exact ih h.tail
    | quit => exact ih h.tail

/-- NEW_PRESS stays set through the rest of the list. -/
theorem poll_newPress_of_newPress (evs : List HostEvent) {s : State} (h : s.newPress = true) :
    (poll evs s).newPress = true := by
  induction evs generalizing s with
  | nil => exact h
  | cons e evs ih =>
    rw [poll_cons]
    apply ih
    cases e with
    | keyDown k =>
      cases hk : s.key.get k with
      | false => rw [applyEvent_keyDown_up hk]
      | true => rwa [applyEvent_keyDown_down hk]
    | keyUp k => exact h
    | quit => exact h

theorem poll_quitPending (evs : List HostEvent) (s : State) :
    (poll evs s).quitPending = true ↔ s.quitPending = true ∨ .quit ∈ evs := by
  induction evs generalizing s with
  | nil => simp
  | cons e evs ih =>
    rw [poll_cons, ih]
    cases e with
    | keyDown k =>
      cases hk : s.key.get k with
      | false => simp [applyEvent_keyDown_up hk]
      | true => simp [applyEvent_keyDown_down hk]
    | keyUp k => simp [applyEvent]
    | quit => simp [applyEvent]

/-- The list up to a new press, with the press. -/
theorem poll_newPress_at {before after : List HostEvent} {k : KeyNum} {s : State}
    (h : (poll before s).key.get k = false) :
    poll (before ++ .keyDown k :: after) s =
      poll after { poll before s with key := (poll before s).key.set k.val true, lastKey := k, newPress := true } := by
  rw [poll_append, poll_cons, applyEvent_keyDown_up h]

/-! ### The phases -/

section
variable {s : State} (goes : s.FramesRun)
include goes

/-- Rule R252. -/
theorem step_poll (hp : s.phase = .poll) :
    step s = .next { poll (frameEvents s) s with phase := .batch 0, events := s.events.tail, polls := s.polls + 1 } := by
  rw [step_of_framesRun goes, performPhase, hp]

/-- Rule R256. -/
theorem step_audio (hp : s.phase = .audio) : step s = .next { audioGate s with phase := .tick } := by
  rw [step_of_framesRun goes, performPhase, hp]

/-- Rule R300. -/
theorem step_tick (hp : s.phase = .tick) : step s = .next { timerTick s with phase := .present } := by
  rw [step_of_framesRun goes, performPhase, hp]

/-- Rule R258. -/
theorem step_present (hp : s.phase = .present) : step s = .next { presentFrame s with phase := .sleep } := by
  rw [step_of_framesRun goes, performPhase, hp]

/-- Rule R260. -/
theorem step_sleep (hp : s.phase = .sleep) : step s = .next { s with phase := .endFrame } := by
  rw [step_of_framesRun goes, performPhase, hp]

/-- Rule R259. -/
theorem step_endFrame (hp : s.phase = .endFrame) : step s = .next { endOfFrame s with phase := .poll } := by
  rw [step_of_framesRun goes, performPhase, hp]

end

/-- The list that waits is the frame's (rule R8). -/
theorem frameEvents_cons {s : State} {evs : List HostEvent} {rest : List (List HostEvent)} (h : s.events = evs :: rest) :
    frameEvents s = evs := by
  rw [frameEvents, h]

/-! ### The obligations -/

/-- Settles O42: the wait takes its key or idles, and neither halts, so the frame moves on. -/
theorem keyWaitSlot : Obligations.KeyWaitSlot := by
  intro s r k hr hk
  refine ⟨fun hp => ?_, step_of_noPress hr hk⟩
  rw [step_of_newPress hr hk hp, afterSlot_of_not_halted RunMode.noConfusion]
  refine ⟨_, rfl, fun q => ?_, rfl⟩
  have hkey : (BitVec.ofNat 8 s.lastKey.val).toNat = s.lastKey.val :=
    Nat.mod_eq_of_lt (s.lastKey.isLt.trans (by decide))
  rw [← hkey, ← apply_ite BitVec.toNat]
  exact congrArg BitVec.toNat (get_set s.v r q _)

/-- Settles O43: the idle slots one after another, and the last one leads to AUDIO. -/
theorem waitIdlesToTheEndOfTheBatch : Obligations.WaitIdlesToTheEndOfTheBatch := by
  intro s r k hr hp hk hlt
  refine ⟨steps_idle hr hp hk, ?_⟩
  obtain ⟨j, hj⟩ : ∃ j, s.slotsPerFrame = k + j + 1 := ⟨s.slotsPerFrame - k - 1, by omega⟩
  rw [show s.slotsPerFrame - k = j + 1 by omega, steps_add, steps_idle hr hp hk j (by omega), andThen_next, steps,
    step_idle hr hp, andThen_next, if_neg (by omega)]
  rfl

/-- Settles O44: the keys by the list's last event about each; NEW_PRESS and LAST_KEY by the list cut at a new press, after
which none changes them. -/
theorem pollAppliesTheEventsInOrder : Obligations.PollAppliesTheEventsInOrder := by
  intro evs s
  refine ⟨poll_key_get evs s, ⟨fun h => ?_, ?_⟩, ?_, fun h => (NoNewPress.unchanged h).2, poll_quitPending evs s,
    poll_eq evs s⟩
  · by_cases hno : NoNewPress evs s
    · exact .inl (hno.unchanged.1.symm.trans h)
    · simp only [NoNewPress, not_forall, Bool.not_eq_true] at hno
      obtain ⟨before, k, after, hevs, hk⟩ := hno
      exact .inr ⟨before, k, after, hevs, hk⟩
  · rintro (h | ⟨before, k, after, rfl, hk⟩)
    · exact poll_newPress_of_newPress evs h
    · rw [poll_newPress_at hk]
      exact poll_newPress_of_newPress after rfl
  · rintro before k after rfl hk hrest
    have hno : NoNewPress after _ := fun before' k' after' hafter =>
      (congrArg (fun t : State => t.key.get k') (poll_newPress_at hk)).symm.trans (hrest before' k' after' hafter)
    rw [poll_newPress_at hk, hno.unchanged.2]

/-- Settles O46: each timer is counted down by itself. -/
theorem tickCountsDownClamped : Obligations.TickCountsDownClamped :=
  fun s goes hp => ⟨_, step_tick goes hp, countDown_toNat s.dt, countDown_toNat s.st, rfl⟩

/-- Settles O45: one clause for each phase, and for each of the two ways a phase can go. -/
theorem phasesInOrder : Obligations.PhasesInOrder := by
  intro s goes
  refine ⟨step_poll goes, ?pollOfQueue, ?resume, ?pause, tickCountsDownClamped s goes, step_present goes, step_sleep goes,
    ?quit, ?next⟩
  case pollOfQueue =>
    intro evs rest hp he
    rw [step_poll goes hp, frameEvents_cons he, he]
    rfl
  case resume =>
    intro hp hst
    rw [step_audio goes hp, audioGate_of_pos hst]
  case pause =>
    intro hp hst
    rw [step_audio goes hp, audioGate_of_zero hst]
  case quit =>
    intro hp hq
    rw [step_endFrame goes hp, endOfFrame_of_quit hq]
  case next =>
    intro hp hq
    rw [step_endFrame goes hp, endOfFrame_of_noQuit hq]

/-- Settles O47: one tick is one down, and subtraction below 0 stays at 0. -/
theorem timersReachZeroAndStay : Obligations.TimersReachZeroAndStay := by
  intro n s
  induction n with
  | zero => exact ⟨rfl, rfl⟩
  | succ n ih =>
    obtain ⟨hdt, hst⟩ := ih
    rw [Function.iterate_succ_apply', timerTick_dt, timerTick_st, countDown_toNat, countDown_toNat, hdt, hst]
    exact ⟨Nat.sub_sub .., Nat.sub_sub ..⟩

end Sys2Proof.Machine
end

section
/-! PROOFS. A frame as steps and as one function (rule R261), and AUDIO_ON, which nothing reads (rule R41). A cycle neither reads
nor writes the place in the frame, so the slots of a batch do the same wherever they stand in it. -/

namespace Sys2Proof.Machine

/-! ### A cycle and the frame's bookkeeping -/

/-- No cycle writes the frame's bookkeeping or AUDIO_ON. -/
theorem Cycles.book {s t : State} (h : Cycles s t) : withBook s.phase s.events s.polls s.audioOn t = t := by
  cases h with
  | completes _ _ h => cases h <;> rfl
  | _ => rfl

theorem Cycles.slotsPerFrame_eq {s t : State} (h : Cycles s t) : t.slotsPerFrame = s.slotsPerFrame := by
  cases h with
  | completes _ _ h => exact h.slotsPerFrame_eq
  | _ => rfl

/-- The state at another place of the frame, with another queue of event lists. -/
def withPlace (p : Phase) (e : List (List HostEvent)) (n : Nat) (s : State) : State :=
  { s with phase := p, events := e, polls := n }

section
variable (e : List (List HostEvent)) (n : Nat)

/-- A cycle does the same at every place of the frame. -/
theorem cycle_withPlace (p : Phase) {s t : State} (h : cycle s = .next t) (hc : Cycles s t) :
    cycle (withPlace p e n s) = .next (withPlace p e n t) := by
  have hbook := cycle_withBook p e n s.audioOn s
  rw [h, mapNext, ← hc.book] at hbook
  rw [← hc.book]
  exact hbook

section
variable {s t : State} {k : Nat} (goes : s.FramesRun) (h : cycle s = .next t) (hc : Cycles s t)
include goes h hc

/-- A slot, at a place given (rule R250). -/
theorem step_slot : step (withPlace (.batch k) e n s) = .next (afterSlot k (withPlace (.batch k) e n t)) := by
  have hgoes : (withPlace (.batch k) e n s).FramesRun := goes
  rw [step_of_batch hgoes rfl, cycle_withPlace e n _ h hc, andThen_next]

/-- A slot with another to follow (rule R253). -/
theorem step_slot_next (ht : t.FramesRun) (hk : k + 1 < s.slotsPerFrame) :
    step (withPlace (.batch k) e n s) = .next (withPlace (.batch (k + 1)) e n t) := by
  have hgoes : (withPlace (.batch k) e n t).run ≠ .halted := ht.ne_halted
  rw [← hc.slotsPerFrame_eq] at hk
  rw [step_slot e n goes h hc, afterSlot_of_not_halted hgoes]
  exact congrArg (fun p => Host.Outcome.next (withPlace p e n t)) (if_pos hk)

/-- The last slot (rule R253). -/
theorem step_slot_last (ht : t.FramesRun) (hk : k + 1 = s.slotsPerFrame) :
    step (withPlace (.batch k) e n s) = .next (withPlace .audio e n t) := by
  have hgoes : (withPlace (.batch k) e n t).run ≠ .halted := ht.ne_halted
  rw [← hc.slotsPerFrame_eq] at hk
  rw [step_slot e n goes h hc, afterSlot_of_not_halted hgoes]
  exact congrArg (fun p => Host.Outcome.next (withPlace p e n t)) (if_neg hk.not_lt)

/-- A slot that raised (rule R254). -/
theorem step_slot_halts (ht : t.run = .halted) :
    step (withPlace (.batch k) e n s) = .next (withPlace (.batch k) e n t) := by
  have hhalt : (withPlace (.batch k) e n t).run = .halted := ht
  rw [step_slot e n goes h hc, afterSlot_of_halted hhalt]

end

/-! ### The batch as steps -/

theorem andThen_eq_next {r : Result} {f : State → Result} {t : State} (h : andThen r f = .next t) :
    ∃ u, r = .next u ∧ f u = .next t := by
  cases r with
  | next u => exact ⟨u, rfl, h⟩
  | fault | refused => cases h

/-- The first slot of a batch (rules R253 and R254): it raises and the batch ends, or the rest of the batch follows. -/
theorem batch_succ {m : Nat} {s t : State} (goes : s.FramesRun) (h : batch (m + 1) s = .next t) :
    ∃ u, cycle s = .next u ∧ Cycles s u ∧ ((u.run = .halted ∧ u = t) ∨ (u.FramesRun ∧ batch m u = .next t)) := by
  obtain ⟨u, hu, ht⟩ := andThen_eq_next h
  have hc := cycles_of_cycle goes hu
  refine ⟨u, hu, hc, ?_⟩
  by_cases hhalt : u.run = .halted
  · rw [if_pos hhalt] at ht
    exact .inl ⟨hhalt, Host.Outcome.next.inj ht⟩
  · rw [if_neg hhalt] at ht
    refine .inr ⟨hc.framesRun_or_raised.resolve_right ?_, ht⟩
    rintro ⟨_, _, _, rfl⟩
    exact hhalt rfl

/-- Rule R253, as steps: a batch in which no slot halts ends at AUDIO. -/
theorem steps_batch (m k : Nat) {s t : State} (goes : s.FramesRun) (hslots : k + (m + 1) = s.slotsPerFrame)
    (h : batch (m + 1) s = .next t) (ht : t.run ≠ .halted) :
    t.FramesRun ∧ steps (m + 1) (withPlace (.batch k) e n s) = .next (withPlace .audio e n t) := by
  induction m generalizing k s with
  | zero =>
    obtain ⟨u, hu, hc, ⟨hhalt, rfl⟩ | ⟨hgoes, hrest⟩⟩ := batch_succ goes h
    · exact absurd hhalt ht
    · obtain rfl := Host.Outcome.next.inj hrest
      exact ⟨hgoes, by rw [steps, step_slot_last e n goes hu hc hgoes hslots]; rfl⟩
  | succ m ih =>
    obtain ⟨u, hu, hc, ⟨hhalt, rfl⟩ | ⟨hgoes, hrest⟩⟩ := batch_succ goes h
    · exact absurd hhalt ht
    · obtain ⟨htgoes, hsteps⟩ := ih (k + 1) hgoes (by rw [hc.slotsPerFrame_eq]; omega) hrest
      exact ⟨htgoes, by rw [steps, step_slot_next e n goes hu hc hgoes (by omega), andThen_next, hsteps]⟩

/-- Rule R254, as steps: a batch in which a slot halts ends in that slot. -/
theorem steps_batch_halting (m k : Nat) {s t : State} (goes : s.FramesRun) (hslots : k + m = s.slotsPerFrame)
    (h : batch m s = .next t) (ht : t.run = .halted) :
    ∃ j < m, steps (j + 1) (withPlace (.batch k) e n s) = .next (withPlace (.batch (k + j)) e n t) := by
  induction m generalizing k s with
  | zero =>
    obtain rfl := Host.Outcome.next.inj h
    exact absurd ht goes.ne_halted
  | succ m ih =>
    obtain ⟨u, hu, hc, ⟨hhalt, rfl⟩ | ⟨hgoes, hrest⟩⟩ := batch_succ goes h
    · exact ⟨0, Nat.succ_pos m, by rw [steps, step_slot_halts e n goes hu hc hhalt]; rfl⟩
    · obtain ⟨j, hj, hsteps⟩ := ih (k + 1) hgoes (by rw [hc.slotsPerFrame_eq]; omega) hrest
      have hmore : k + 1 < s.slotsPerFrame := by omega
      refine ⟨j + 1, Nat.succ_lt_succ hj, ?_⟩
      rw [steps, step_slot_next e n goes hu hc hgoes hmore, andThen_next, hsteps, Nat.add_right_comm, Nat.add_assoc]

/-! ### The rest of the frame as steps -/

theorem audioGate_withPlace (p : Phase) (s : State) : audioGate (withPlace p e n s) = withPlace p e n (audioGate s) := by
  rw [audioGate, audioGate, apply_ite (withPlace p e n)]
  rfl

theorem endOfFrame_withPlace (p : Phase) (s : State) : endOfFrame (withPlace p e n s) = withPlace p e n (endOfFrame s) := by
  rw [endOfFrame, endOfFrame, apply_ite (withPlace p e n)]
  rfl

/-- Rules R256 to R260, as steps. -/
theorem steps_after_batch {s : State} (goes : s.FramesRun) :
    steps 5 (withPlace .audio e n s) =
      .next (withPlace .poll e n (endOfFrame (presentFrame (timerTick (audioGate s))))) := by
  have hgate : (audioGate s).FramesRun := by rwa [State.FramesRun, audioGate_run]
  have haudio : step (withPlace .audio e n s) = .next (withPlace .tick e n (audioGate s)) := by
    rw [step_audio (s := withPlace .audio e n s) goes rfl, audioGate_withPlace]
    rfl
  have htick : step (withPlace .tick e n (audioGate s)) = .next (withPlace .present e n (timerTick (audioGate s))) :=
    step_tick (s := withPlace .tick e n _) hgate rfl
  have hpresent : step (withPlace .present e n (timerTick (audioGate s))) =
      .next (withPlace .sleep e n (presentFrame (timerTick (audioGate s)))) :=
    step_present (s := withPlace .present e n _) hgate rfl
  have hsleep : step (withPlace .sleep e n (presentFrame (timerTick (audioGate s)))) =
      .next (withPlace .endFrame e n (presentFrame (timerTick (audioGate s)))) :=
    step_sleep (s := withPlace .sleep e n _) hgate rfl
  have hend : step (withPlace .endFrame e n (presentFrame (timerTick (audioGate s)))) =
      .next (withPlace .poll e n (endOfFrame (presentFrame (timerTick (audioGate s))))) := by
    rw [step_endFrame (s := withPlace .endFrame e n (presentFrame (timerTick (audioGate s)))) hgate rfl, endOfFrame_withPlace]
    rfl
  simp only [steps, haudio, htick, hpresent, hsleep, hend, andThen_next]

end

/-- Rule R252, as a step. -/
theorem step_poll_withPlace {s : State} (goes : s.FramesRun) (hp : s.phase = .poll) :
    step s = .next (withPlace (.batch 0) s.events.tail (s.polls + 1) (poll (frameEvents s) s)) :=
  step_poll goes hp

theorem poll_framesRun {s : State} (h : s.FramesRun) (evs : List HostEvent) : (poll evs s).FramesRun := by
  rwa [State.FramesRun, poll_run]

@[simp] theorem poll_slotsPerFrame (evs : List HostEvent) (s : State) :
    (poll evs s).slotsPerFrame = s.slotsPerFrame := by rw [poll_eq]

/-! ### AUDIO_ON -/

/-- AUDIO_ON set to a given value. -/
def withAudio (b : Bool) (s : State) : State := { s with audioOn := b }

theorem cycle_withAudio (b : Bool) {s t : State} (h : cycle s = .next t) (hc : Cycles s t) :
    cycle (withAudio b s) = .next (withAudio b t) := by
  have hbook := cycle_withBook s.phase s.events s.polls b s
  rw [h, mapNext, ← hc.book] at hbook
  rw [← hc.book]
  exact hbook

theorem poll_withAudio (b : Bool) (evs : List HostEvent) (s : State) :
    poll evs (withAudio b s) = withAudio b (poll evs s) := by
  induction evs generalizing s with
  | nil => rfl
  | cons e evs ih =>
    rw [poll_cons, poll_cons, ← ih]
    congr 1
    cases e with
    | keyDown k =>
      cases hk : s.key.get k with
      | false => rw [applyEvent_keyDown_up hk, applyEvent_keyDown_up (s := withAudio b s) hk]; rfl
      | true => rw [applyEvent_keyDown_down hk, applyEvent_keyDown_down (s := withAudio b s) hk]
    | keyUp k => rfl
    | quit => rfl

theorem afterSlot_withAudio (b : Bool) (k : Nat) (s : State) :
    afterSlot k (withAudio b s) = withAudio b (afterSlot k s) := by
  rw [afterSlot, afterSlot, apply_ite (withAudio b)]
  rfl

theorem endOfFrame_withAudio (b : Bool) (s : State) : endOfFrame (withAudio b s) = withAudio b (endOfFrame s) := by
  rw [endOfFrame, endOfFrame, apply_ite (withAudio b)]
  rfl

/-- While frames run, only AUDIO gives AUDIO_ON a value, and that without a look at it. -/
theorem step_withAudio (b : Bool) {s : State} (goes : s.FramesRun) :
    step (withAudio b s) = mapNext (fun t => if s.phase = .audio then t else withAudio b t) (step s) := by
  have hgoes : (withAudio b s).FramesRun := goes
  cases hp : s.phase with
  | poll =>
    rw [step_poll goes hp, step_poll hgoes hp]
    exact congrArg (fun t => Host.Outcome.next (withPlace (.batch 0) s.events.tail (s.polls + 1) t))
      (poll_withAudio b (frameEvents s) s)
  | batch k =>
    obtain ⟨t, ht, hc⟩ := cycle_cycles goes
    rw [step_of_batch goes hp, step_of_batch hgoes hp, ht, cycle_withAudio b ht hc, andThen_next, andThen_next,
      afterSlot_withAudio]
    rfl
  | audio =>
    rw [step_audio goes hp, step_audio hgoes hp]
    rfl
  | tick =>
    rw [step_tick goes hp, step_tick hgoes hp]
    rfl
  | present =>
    rw [step_present goes hp, step_present hgoes hp]
    rfl
  | sleep =>
    rw [step_sleep goes hp, step_sleep hgoes hp]
    rfl
  | endFrame =>
    rw [step_endFrame goes hp, step_endFrame hgoes hp, endOfFrame_withAudio]
    rfl

/-! ### The obligations -/

/-- Settles O50: POLL is one step, the batch N, and the rest of the frame five. -/
theorem stepsOfAFrameAreTheFrameFunction : Obligations.StepsOfAFrameAreTheFrameFunction := by
  intro s t goes hp hslots h ht
  obtain ⟨u, hu, htu⟩ := andThen_eq_next h
  by_cases hhalt : u.run = .halted
  · rw [if_pos hhalt] at htu
    exact absurd (Host.Outcome.next.inj htu ▸ hhalt) ht
  rw [if_neg hhalt] at htu
  obtain rfl := Host.Outcome.next.inj htu
  obtain ⟨m, hm⟩ : ∃ m, s.slotsPerFrame = m + 1 := ⟨s.slotsPerFrame - 1, by omega⟩
  rw [hm] at hu
  obtain ⟨hgoes, hsteps⟩ := steps_batch s.events.tail (s.polls + 1) m 0 (poll_framesRun goes _)
    (by rw [poll_slotsPerFrame, hm, Nat.zero_add]) hu hhalt
  rw [hm, show m + 1 + 6 = 1 + ((m + 1) + 5) by omega, steps_add, steps, step_poll_withPlace goes hp, andThen_next, steps,
    andThen_next, steps_add, hsteps, andThen_next, steps_after_batch _ _ hgoes]
  rfl

/-- Settles O51: POLL is one step, and the batch ends in the slot that raised; what follows a batch halts nothing. -/
theorem haltingFrameIsAbandoned : Obligations.HaltingFrameIsAbandoned := by
  intro s t goes hp _ h ht
  obtain ⟨u, hu, htu⟩ := andThen_eq_next h
  by_cases hhalt : u.run = .halted
  · rw [if_pos hhalt] at htu
    obtain rfl := Host.Outcome.next.inj htu
    obtain ⟨k, hk, hsteps⟩ := steps_batch_halting s.events.tail (s.polls + 1) _ 0 (poll_framesRun goes _)
      (by rw [poll_slotsPerFrame, Nat.zero_add]) hu hhalt
    refine ⟨k, hk, ?_⟩
    rw [steps, step_poll_withPlace goes hp, andThen_next, hsteps, Nat.zero_add]
    rfl
  · rw [if_neg hhalt] at htu
    obtain rfl := Host.Outcome.next.inj htu
    refine absurd ht (endOfFrame_run_ne_halted ?_)
    simpa using hhalt

/-- Settles O52: AUDIO overwrites AUDIO_ON without a look at it, and every other phase and every cycle passes it on. -/
theorem audioOutputIsNeverRead : Obligations.AudioOutputIsNeverRead := by
  intro s b
  change step (withAudio b s) = mapNext (fun t => if s.phase = .audio then t else withAudio b t) (step s)
  cases hrun : s.run with
  | running => exact step_withAudio b (.inl hrun)
  | waitingForKey r => exact step_withAudio b (.inr ⟨r, hrun⟩)
  | halted | stopped | loadFailed =>
    have hrun' : (withAudio b s).run = _ := hrun
    rw [step, step, frameStep, frameStep, hrun, hrun']
    rfl

end Sys2Proof.Machine
end

section
/-! PROOFS. Control transfers, key skips and the operations with a flag (rules R142 to R145, R176 to R187, R192 and R211 to R213):
each clause is one branch of the instruction's equation. -/

namespace Sys2Proof.Machine

/-! ### Return, jump, call -/

/-- Rule R142, with an entry in use. -/
theorem exec_ret_of_pos {s : State} (h : 0 < s.sp.val) (j : Fin 16) (hj : j.val + 1 = s.sp.val) :
    exec .ret s = .next { s with pc := s.stack.get j, sp := j.castSucc } := by
  have e := pop_of_pos h j hj
  simp only [exec, execRet, e]
  rfl

/-- Rule R144, to an even target with room on the stack. -/
theorem exec_call_of_room {nnn : Addr12} {s : State} (even : nnn.toNat % 2 = 0) (room : s.sp.val < 16) :
    exec (.call nnn) s = .next { s with
      pc := addrWord nnn
      sp := ⟨s.sp.val + 1, Nat.succ_lt_succ room⟩
      stack := s.stack.set s.sp.val (s.pc + 2) } := by
  rw [exec_call_eq, if_neg (by omega), dif_pos room]

/-- The stack after a push (rule R29). -/
theorem pushed_get (stack : Vector Word 16) {sp : Nat} (h : sp < 16) (w : Word) (j : Fin 16) :
    (stack.set sp w).get j = if j.val = sp then w else stack.get j :=
  (get_set stack ⟨sp, h⟩ j w).trans (if_congr Fin.ext_iff rfl rfl)

/-! ### The flag and the result -/

/-- Rules R126, R129 and R187: the result in `V[x]`, the flag in VF, VF last, and nothing else but PC. -/
theorem complete_writeWithFlag (x : RegNum) (result : Byte) (flag : Bool) (s : State) {f r : Nat}
    (hf : (flagByte flag).toNat = f) (hr : result.toNat = r) :
    ∃ t, complete (writeWithFlag x result flag s) = .next t ∧
      (∀ q, (t.v.get q).toNat = if q = 15 then f else if q = x then r else (s.v.get q).toNat) ∧
      t = { s with v := t.v, pc := s.pc + 2 } := by
  refine ⟨_, rfl, fun q => ?_, rfl⟩
  rw [advancePc_v, writeWithFlag_get, ← hf, ← hr, apply_ite BitVec.toNat, apply_ite BitVec.toNat]

theorem sub_toNat (a b : Byte) : (a - b).toNat = (a.toNat + 256 - b.toNat) % 256 := by
  rw [BitVec.toNat_sub]
  have := b.isLt
  congr 1
  omega

theorem shr_one_toNat (a : Byte) : (a >>> 1).toNat = a.toNat / 2 := by
  rw [BitVec.toNat_ushiftRight, Nat.shiftRight_one]

theorem shl_one_toNat (a : Byte) : (a <<< 1).toNat = a.toNat * 2 % 256 := by
  rw [BitVec.toNat_shiftLeft, Nat.shiftLeft_eq, Nat.pow_one]

/-! ### The obligations -/

/-- Settles O14: the two branches of the pop. -/
theorem returnPopsOrHalts : Obligations.ReturnPopsOrHalts := by
  intro s
  refine ⟨fun h => by rw [exec_ret_eq, dif_pos h], fun h => ?_⟩
  obtain ⟨j, hj⟩ : ∃ j : Fin 16, j.val + 1 = s.sp.val := ⟨⟨s.sp.val - 1, by omega⟩, Nat.sub_add_cancel h⟩
  exact ⟨_, exec_ret_of_pos h j hj, hj, ⟨j, rfl, rfl⟩, rfl⟩

/-- Settles O15: the two branches of the alignment check. -/
theorem jumpToEvenTarget : Obligations.JumpToEvenTarget := by
  intro nnn s
  rw [exec_jp_eq]
  refine ⟨fun even => ?_, fun odd => by rw [if_pos odd]⟩
  rw [if_neg (by omega)]
  exact ⟨_, rfl, addrWord_toNat nnn, rfl⟩

/-- Settles O16: the alignment check comes first, the check for room next. -/
theorem callPushesAndJumps : Obligations.CallPushesAndJumps := by
  intro nnn s
  refine ⟨fun odd => ?odd, fun even full => ?full, fun even room => ?room⟩
  case odd => rw [exec_call_eq, if_pos odd]
  case full => rw [exec_call_eq, if_neg (by omega), dif_neg (by omega)]
  case room => exact ⟨_, exec_call_of_room even room, addrWord_toNat nnn, rfl, pushed_get s.stack room _, rfl⟩

/-- Settles O17: the return pops the entry the call pushed, and the entries below were not touched. -/
theorem returnUndoesCall : Obligations.ReturnUndoesCall := by
  intro nnn s even room
  refine ⟨_, exec_call_of_room even room, fun t' hsp hstack => ?_⟩
  have htop : s.sp.val + 1 = t'.sp.val := (congrArg Fin.val hsp).symm
  refine ⟨_, exec_ret_of_pos (by omega) ⟨s.sp.val, room⟩ htop, ?_, rfl, fun j hj => ?_, rfl⟩
  · rw [hstack]
    exact (pushed_get s.stack room _ _).trans (if_pos rfl)
  · dsimp only
    rw [hstack]
    exact (pushed_get s.stack room _ _).trans (if_neg (by omega))

/-- Settles O27: the two branches of the alignment check, on a sum the PC holds. -/
theorem jumpWithOffset : Obligations.JumpWithOffset := by
  intro nnn s
  rw [exec_jpV0_eq]
  refine ⟨fun even => ?_, fun odd => by rw [if_pos odd]⟩
  rw [if_neg (by omega)]
  exact ⟨_, rfl, offsetTarget_toNat s nnn, rfl⟩

/-- Settles O19: a number up to 15 names a key, whose flag decides; a larger one is reported. -/
theorem keySkips : Obligations.KeySkips := by
  intro x s
  refine ⟨fun k hk => ?_, fun h => ?_⟩
  · have hlt : (s.v.get x).toNat < 16 := hk ▸ k.isLt
    have hkey : s.key[(s.v.get x).toNat] = s.key.get k := by simp only [hk]; rfl
    rw [exec_skp_eq, exec_sknp_eq, dif_pos hlt, dif_pos hlt, hkey]
    cases s.key.get k <;> exact ⟨rfl, rfl⟩
  · have hge : ¬ (s.v.get x).toNat < 16 := by omega
    rw [exec_skp_eq, exec_sknp_eq, dif_neg hge, dif_neg hge]
    exact ⟨rfl, rfl⟩

/-- Settles O23: the byte sum and the carry of rule R186. -/
theorem addWithCarry : Obligations.AddWithCarry := fun x y s =>
  complete_writeWithFlag x _ _ s (carry_toNat (s.v.get x) (s.v.get y)) (BitVec.toNat_add _ _)

/-- Settles O24: the byte difference and the no-borrow flag of rule R186, the operands in either order. -/
theorem subtractWithNoBorrow : Obligations.SubtractWithNoBorrow := fun x y s =>
  ⟨complete_writeWithFlag x _ _ s (noBorrow_toNat (s.v.get x) (s.v.get y)) (sub_toNat _ _),
    complete_writeWithFlag x _ _ s (noBorrow_toNat (s.v.get y) (s.v.get x)) (sub_toNat _ _)⟩

/-- Settles O25: the byte shifted and the bit moved out (rules R180 and R184). -/
theorem shiftsByOne : Obligations.ShiftsByOne := fun x _ s =>
  ⟨complete_writeWithFlag x _ _ s (lowBit_toNat (s.v.get x)) (shr_one_toNat _),
    complete_writeWithFlag x _ _ s (highBit_toNat (s.v.get x)) (shl_one_toNat _)⟩

end Sys2Proof.Machine
end

section
/-! PROOFS. The random byte, the timers, the key wait and the index instructions (rules R194 and R221 to R230). -/

namespace Sys2Proof.Machine

theorem drawnByte_cons {s : State} {r : Byte} {rest : List Byte} (h : s.rnd = r :: rest) : drawnByte s = r := by
  rw [drawnByte, h]

/-- Rule R194. -/
theorem exec_rnd_eq (x : RegNum) (kk : Byte) (s : State) :
    exec (.rnd x kk) s = .next { s with
      v := s.v.set x.val (drawnByte s &&& kk)
      pc := s.pc + 2
      rnd := s.rnd.tail
      draws := s.draws + 1 } := rfl

/-! ### The obligations -/

/-- Settles O28: one draw, the first byte that waits or the free byte of that draw. -/
theorem randomByteIsMasked : Obligations.RandomByteIsMasked := by
  intro x kk s
  rw [exec_rnd_eq]
  refine ⟨fun r rest h => ?_, fun h => ⟨drawnByte s, ?_⟩⟩
  · rw [drawnByte_cons h, h]
    exact ⟨_, rfl, fun q => get_set s.v x q _, rfl⟩
  · rw [h, List.tail_nil, ← h]
    exact ⟨_, rfl, fun q => get_set s.v x q _, rfl⟩

/-- Settles O33: one register or one timer written, and the fetch advance. -/
theorem timerInstructions : Obligations.TimerInstructions := fun x s =>
  ⟨⟨_, rfl, fun r => get_set s.v x r s.dt, rfl⟩, rfl, rfl⟩

/-- Settles O34: the entry of the wait is one state by definition. -/
theorem keyWaitEntry : Obligations.KeyWaitEntry := fun _ _ => rfl

/-- Settles O35: the two branches of the range check, on a sum I holds. -/
theorem addToIndex : Obligations.AddToIndex := by
  intro x s
  rw [exec_addI_eq]
  refine ⟨fun inRange => ?_, fun h => by rw [if_pos h]⟩
  rw [if_neg (by omega)]
  exact ⟨_, rfl, Nat.mod_eq_of_lt (by omega), rfl⟩

/-- Settles O36: five times a byte is at most 1275, which I holds. -/
theorem fontAddress : Obligations.FontAddress := by
  intro x s
  have := (s.v.get x).isLt
  exact ⟨_, rfl, Nat.mod_eq_of_lt (by omega), rfl⟩

end Sys2Proof.Machine
end

section
/-! PROOFS. The sprite draw (rules R200 to R206): the scan touches the sprite's cells once each, so it inverts exactly them, and a
second scan of the same cells inverts them back. -/

namespace Sys2Proof.Machine

/-! ### A draw within memory -/

/-- Rules R200 and R205: a sprite within memory, or of no rows, is scanned. -/
theorem exec_drw_inBounds {n : Nibble} {s : State} (h : n.toNat = 0 ∨ s.i.toNat + n.toNat - 1 ≤ 0xFFF) (x y : RegNum) :
    exec (.drw x y n) s = .next { s with
      pc := s.pc + 2
      fb := (scanned x y n s).fb
      out := s.out ++ (scanned x y n s).drawn
      v := s.v.set 15 (flagByte (scanned x y n s).hit) } := by
  rw [exec_drw_eq, if_neg (by rw [lastFromI]; omega)]

/-- Rule R203: a cell of the sprite is inverted. -/
theorem scanned_pixel_of_spriteSets {x y : RegNum} {n : Nibble} {s : State} {px : Fin 64} {py : Fin 32}
    (h : spriteSets s.mem s.i.toNat (s.v.get x) (s.v.get y) n.toNat px py) :
    (scanned x y n s).fb.pixel px py = !s.fb.pixel px py := by
  rw [(scanned_spec x y n s).1, if_pos ((mem_spriteCells ..).2 h)]

/-- Rule R203: no other cell is touched. -/
theorem scanned_pixel_of_not_spriteSets {x y : RegNum} {n : Nibble} {s : State} {px : Fin 64} {py : Fin 32}
    (h : ¬ spriteSets s.mem s.i.toNat (s.v.get x) (s.v.get y) n.toNat px py) :
    (scanned x y n s).fb.pixel px py = s.fb.pixel px py := by
  rw [(scanned_spec x y n s).1, if_neg fun hmem => h ((mem_spriteCells ..).1 hmem)]

/-- Rule R203: the collision is a cell of the sprite that was on. -/
theorem scanned_hit (x y : RegNum) (n : Nibble) (s : State) :
    (scanned x y n s).hit = true ↔
      ∃ px py, spriteSets s.mem s.i.toNat (s.v.get x) (s.v.get y) n.toNat px py ∧ s.fb.pixel px py = true := by
  simp only [(scanned_spec x y n s).2.1, List.any_eq_true, Prod.exists, mem_spriteCells]

/-- VF after the scan is the collision. -/
theorem get_vf_set (v : Vector Byte 16) (b : Byte) : (v.set 15 b).get 15 = b := by rw [get_set_vf, if_pos rfl]

/-! ### The obligations -/

/-- Settles O29: the scan inverts the sprite's cells and no other, and VF is the collision. -/
theorem drawInvertsTheSpriteCells : Obligations.DrawInvertsTheSpriteCells := by
  intro x y n s h
  refine ⟨_, _, exec_drw_inBounds h x y, fun px py => ?cells, fun hit => ?collision, fun noHit => ?none, fun r hr => ?others,
    scanned_drawn x y n s, rfl⟩
  case cells =>
    by_cases hset : spriteSets s.mem s.i.toNat (s.v.get x) (s.v.get y) n.toNat px py
    · simp [scanned_pixel_of_spriteSets hset, hset]
    · simp [scanned_pixel_of_not_spriteSets hset, hset]
  case collision => rw [get_vf_set, flagByte_eq_one, scanned_hit]; exact hit
  case none => rw [get_vf_set, flagByte_eq_zero, ← Bool.not_eq_true, scanned_hit]; exact noHit
  case others => rw [get_set_vf, if_neg hr]

/-- Settles O30: the scan's events are those of its cells, each met as it was before the instruction. -/
theorem drawEventsInScanOrder : Obligations.DrawEventsInScanOrder := fun x y n s h =>
  ⟨_, exec_drw_inBounds h x y, congrArg (s.out ++ ·) (scanned_spec x y n s).2.2⟩

/-- Settles O31: the check of the whole sprite comes before VF is cleared. -/
theorem drawPastMemoryIsReported : Obligations.DrawPastMemoryIsReported := by
  intro x y n s hn h
  have hlast : lastFromI s n.toNat = s.i.toNat + n.toNat - 1 := (Nat.add_sub_assoc hn _).symm
  rw [exec_drw_eq, hlast, if_pos ⟨hn, h⟩]

/-- Settles O32: the second scan meets the same cells, inverts them back, and collides where the first turned one on. -/
theorem drawTwiceRestoresTheDisplay : Obligations.DrawTwiceRestoresTheDisplay := by
  intro x y n s t h ht hx hy
  have hdrawn := Host.Outcome.next.inj (ht.symm.trans (exec_drw_inBounds h x y))
  have hfb : t.fb = (scanned x y n s).fb := by rw [hdrawn]
  have hmem : t.mem = s.mem := by rw [hdrawn]
  have hi : t.i = s.i := by rw [hdrawn]
  have hcells (px : Fin 64) (py : Fin 32) : spriteSets t.mem t.i.toNat (t.v.get x) (t.v.get y) n.toNat px py ↔
      spriteSets s.mem s.i.toNat (s.v.get x) (s.v.get y) n.toNat px py := by rw [hmem, hi, hx, hy]
  refine ⟨_, exec_drw_inBounds (hi.symm ▸ h) x y, Framebuffer.ext_pixel fun px py => ?restored, ?collision⟩
  case restored =>
    by_cases hset : spriteSets s.mem s.i.toNat (s.v.get x) (s.v.get y) n.toNat px py
    · rw [scanned_pixel_of_spriteSets ((hcells px py).2 hset), hfb, scanned_pixel_of_spriteSets hset, Bool.not_not]
    · rw [scanned_pixel_of_not_spriteSets (mt (hcells px py).1 hset), hfb, scanned_pixel_of_not_spriteSets hset]
  case collision =>
    rw [get_vf_set, flagByte_eq_one, scanned_hit]
    refine exists_congr fun px => exists_congr fun py => ?_
    rw [hcells, hfb]
    refine and_congr_right fun hset => ?_
    rw [scanned_pixel_of_spriteSets hset, Bool.not_eq_true']

end Sys2Proof.Machine
end

section
/-! PROOFS. Stores and loads at I (rules R70 to R73, R232, R236 and R240), and the fetch of stored bytes (rules R62 and R80). -/

namespace Sys2Proof.Machine

/-! ### Bytes stored and read back -/

/-- Rule R72: a byte of the store. -/
theorem read_stored {bs : List Byte} {m : Memory} {a k : Nat} (h : k < bs.length) :
    (m.writeBytes a bs).read (a + k) = bs[k] := by
  rw [Memory.read_writeBytes, if_pos (Nat.le_add_right a k), Nat.add_sub_cancel_left, List.getD_eq_getElem _ _ h]

/-- Rule R72: a byte outside the store. -/
theorem read_not_stored {bs : List Byte} {m : Memory} {a b : Nat} (h : b < a ∨ a + bs.length ≤ b) :
    (m.writeBytes a bs).read b = m.read b := by
  rw [Memory.read_writeBytes]
  split
  · exact List.getD_eq_default _ _ (by omega)
  · rfl

/-- Rule R232: each digit fits a byte. -/
theorem digit_toNat {d : Nat} (h : d < 256) : (BitVec.ofNat 8 d).toNat = d := Nat.mod_eq_of_lt h

/-! ### The obligations -/

/-- Settles O37: the font check, the bounds check, and the three digits. -/
theorem decimalDigitsStored : Obligations.DecimalDigitsStored := by
  intro x s
  have hb := (s.v.get x).isLt
  rw [exec_ldB_eq]
  refine ⟨fun font => by rw [if_pos font], fun outside => ?_, fun pastFont inRange => ?_⟩
  · rw [if_neg (by omega), if_pos outside]
  · rw [if_neg (by omega), if_neg (by omega)]
    refine ⟨_, rfl, ?_, ?_, ?_, fun a ha => read_not_stored (by rw [bcdDigits_length]; omega), rfl⟩
    · exact (congrArg BitVec.toNat (read_stored (k := 0) (by rw [bcdDigits_length]; decide))).trans (digit_toNat (by omega))
    · exact (congrArg BitVec.toNat (read_stored (k := 1) (by rw [bcdDigits_length]; decide))).trans (digit_toNat (by omega))
    · exact (congrArg BitVec.toNat (read_stored (k := 2) (by rw [bcdDigits_length]; decide))).trans (digit_toNat (by omega))

/-- Settles O38: the font check, the bounds check, and the registers. -/
theorem registersStored : Obligations.RegistersStored := by
  intro x s
  rw [exec_storeRegs_eq]
  refine ⟨fun font => by rw [if_pos font], fun outside => ?_, fun pastFont inRange => ?_⟩
  · rw [if_neg (by omega), if_pos outside]
  · rw [if_neg (by omega), if_neg (by omega)]
    exact ⟨_, rfl, read_stored_reg s x, fun a ha => read_not_stored (by rw [regsUpTo_length]; omega), rfl⟩

/-- Settles O39: the two branches of the bounds check. -/
theorem registersLoaded : Obligations.RegistersLoaded := by
  intro x s
  rw [exec_loadRegs_eq]
  refine ⟨fun inBounds => ?_, fun h => by rw [if_pos h]⟩
  rw [if_neg (by omega)]
  exact ⟨_, rfl, loadedRegs_get s x, rfl⟩

/-- Settles O40: a store that did not halt was within bounds, so the load is too, and reads back each byte stored. -/
theorem loadBringsBackWhatStoreSaved : Obligations.LoadBringsBackWhatStoreSaved := by
  intro x s t t' h ht hmem hi
  obtain ⟨-, inRange, rfl⟩ := exec_storeRegs_done h ht
  obtain ⟨u, hu, hv, -⟩ := (registersLoaded x t').1 (hi ▸ inRange)
  refine ⟨u, hu, fun r hr => ?_, fun r hr => by rw [hv, if_neg hr]⟩
  rw [hv, if_pos hr, hmem, hi, read_stored_reg s x r hr]

/-- Settles O41: the two bytes at the address are the two registers, and the slot is that of any instruction. -/
theorem storeIsSeenByTheNextFetch : Obligations.StoreIsSeenByTheNextFetch := by
  intro x r s t u hr h ht hx hmem hpc
  obtain ⟨-, inRange, rfl⟩ := exec_storeRegs_done h ht
  have hhigh : u.mem.read u.pc.toNat = s.v.get r := by
    rw [hmem, hpc, read_stored_reg s x r (Fin.le_def.2 (by omega))]
  have hlow : u.mem.read (u.pc.toNat + 1) = s.v.get ⟨r.val + 1, hr⟩ := by
    rw [hmem, hpc]
    exact read_stored_reg s x ⟨r.val + 1, hr⟩ hx
  refine ⟨?_, fun k i hrun hk hd => stepRunsTheDecodedInstruction u k i hrun hk (by omega) ?_⟩
  · rw [fetchWord, Memory.readWord_toNat, hhigh, hlow]
  · rw [hhigh, hlow]
    exact hd

end Sys2Proof.Machine
end

section
/-! PROOFS. Reset (rules R43, R74, R75 and R320 to R322): memory after a reset is the font and then the image, and the invariants
of rule R44 hold there. -/

namespace Sys2Proof.Machine

/-! ### Memory after a reset -/

/-- The memory a reset writes the font into. -/
def fontMemory (font : Vector Byte 80) : Memory := Memory.writeBytes [] 0 font.toList

/-- Rules R61 and R320: the font's bytes. -/
theorem fontMemory_read_font (font : Vector Byte 80) (g : Fin 80) : (fontMemory font).read g.val = font.get g := by
  have h := read_stored (m := []) (a := 0) (k := g.val) (show g.val < font.toList.length by simp)
  rw [Nat.zero_add] at h
  exact h.trans (Vector.getElem_toList _)

/-- Rule R43: zeros past the font. -/
theorem fontMemory_read_past (font : Vector Byte 80) {a : Nat} (h : 0x050 ≤ a) : (fontMemory font).read a = 0 := by
  rw [fontMemory, read_not_stored (.inr (by simpa using h)), Memory.read_nil, unlisted_past_font h]

theorem fontMemory_wf (font : Vector Byte 80) : (fontMemory font).wf := Memory.writeBytes_wf _ Memory.reset_wf 0

theorem fontMemory_inSpace (font : Vector Byte 80) : (fontMemory font).InSpace :=
  Memory.writeBytes_inSpace _ (fun _ h => absurd h List.not_mem_nil) (by simp [Config.memSize])

theorem replicate_get {α : Type} {n : Nat} (a : α) (k : Fin n) : (Vector.replicate n a).get k = a :=
  Vector.getElem_replicate k.isLt

/-! ### The invariants -/

/-- A state at its reset values has the invariants, whatever its memory, its framebuffer and its outputs, where the run state and
the fault record agree. -/
theorem inv_of_reset {s : State} (hpc : s.pc = 0x200) (hi : s.i = 0) (hsp : s.sp = 0) (hphase : s.phase = .poll)
    (hmin : 8 ≤ s.slotsPerFrame) (hmax : s.slotsPerFrame ≤ 16) (hwf : s.mem.wf) (hspace : s.mem.InSpace)
    (hfault : s.fault.isSome = true ↔ s.run = .halted ∨ s.run = .loadFailed) : s.Inv where
  pc_even := by rw [hpc]; decide
  pc_le := by rw [hpc]; decide
  i_le := by rw [hi]; decide
  stack_valid j _ h := by rw [hsp] at h; exact absurd h (Nat.not_lt_zero j)
  mem_canonical := hwf
  mem_inSpace := hspace
  fault_iff := hfault
  slots_min := hmin
  slots_max := hmax
  slot_lt k h := by rw [hphase] at h; cases h

/-- The invariants after every reset, failed loads included (rules R320 and R322). -/
theorem resetWith_inv {n : Nat} (hmin : 8 ≤ n) (hmax : n ≤ 16) (font : Vector Byte 80) (fb : Framebuffer)
    (rom : List Byte) : (resetWith n font fb rom).Inv := by
  by_cases h : rom.length ≤ 3584
  · rw [resetWith_fits n font fb h]
    refine inv_of_reset rfl rfl rfl rfl hmin hmax (Memory.writeBytes_wf rom (fontMemory_wf font) _)
      (Memory.writeBytes_inSpace rom (fontMemory_inSpace font) ?_) (by simp [State.reset])
    rw [Config.memSize]
    omega
  · rw [resetWith_tooLarge n font fb (Nat.not_le.1 h)]
    exact inv_of_reset rfl rfl rfl rfl hmin hmax (fontMemory_wf font) (fontMemory_inSpace font) (by simp)

/-! ### The obligations -/

/-- Settles O54: the image is one run of bytes, written over the memory of the empty image. -/
theorem resetCopiesTheImage : Obligations.ResetCopiesTheImage := by
  intro n font fb rom h
  rw [resetWith_fits n font fb h, resetWith_fits n font fb (rom := []) (by simp)]
  exact ⟨fun k hk => read_stored hk, fun a ha => read_not_stored ha⟩

/-- Settles O55: every register at its reset value, and memory the font, the image and zeros. -/
theorem resetState : Obligations.ResetState := by
  intro n font fb rom s h hs
  subst hs
  rw [resetWith_fits n font fb h]
  have font_kept {a : Nat} (ha : a < 0x200) :
      (Memory.writeBytes (fontMemory font) 0x200 rom).read a = (fontMemory font).read a := read_not_stored (.inl ha)
  refine ⟨rfl, replicate_get 0, rfl, rfl, replicate_get 0, rfl, rfl, fun g => ?font, fun a ha hlt => ?beforeImage,
    fun a ha _ => ?afterImage, rfl, replicate_get false, rfl, rfl, rfl, rfl, rfl, rfl, rfl, rfl⟩
  case font => exact (font_kept (by omega)).trans (fontMemory_read_font font g)
  case beforeImage => exact (font_kept hlt).trans (fontMemory_read_past font ha)
  case afterImage => exact (read_not_stored (.inr ha)).trans (fontMemory_read_past font (by omega))

/-- Settles O56: the font alone in memory, and RUN in a mode in which no step is performed. -/
theorem tooLargeImageFailsToLoad : Obligations.TooLargeImageFailsToLoad := by
  intro n font fb rom s h hs
  have hrun : s.run = .loadFailed := by rw [hs, resetWith_tooLarge n font fb h]
  have hstep := (stepStopsExactlyInTheTerminalModes s).2.2.1 hrun
  rw [resetWith_tooLarge n font fb h] at hs
  subst hs
  exact ⟨rfl, rfl, rfl, rfl, rfl, fontMemory_read_font font, fun a ha _ => fontMemory_read_past font ha, hstep⟩

/-- Settles O57: `State.reset` is one of the resets. -/
theorem resetEstablishesTheInvariants : Obligations.ResetEstablishesTheInvariants :=
  ⟨reset_eq_resetWith ▸ resetWith_inv (by decide) (by decide) _ _ _, fun _ font fb rom hmin hmax =>
    resetWith_inv hmin hmax font fb rom⟩

end Sys2Proof.Machine
end
